-- ==== Sys2Proof/Word.lean ====
section
/-! DEFINITION. The widths of the block: FrameWords and buffer entries (00_scope.md R10, `WORD` = 32), channel and
brightness bytes (`CHW` = `BRIW_IN` = 8), command words (30_encoding.md R70, 64 bits). -/

namespace Sys2Proof

/-- A FrameWord, a buffer entry or response data: 32 bits (R10). -/
abbrev Word := BitVec 32

/-- A color channel or the brightness input: 8 bits (R10). -/
abbrev Byte := BitVec 8

/-- A host command on `cmd_word`: always 64 bits (R70). -/
abbrev Command := BitVec 64

end Sys2Proof
end

