-- ==== Sys2Proof/Config.lean ====
section
/-! DEFINITION. What an implementation fixes (00_scope.md R7, R10) and the values the spec leaves free. The free
values are constants with no body: a statement holds whatever they are. -/

namespace Sys2Proof

/-- The build-time parameters a rule depends on. They are carried in the state, which no step changes (log 1). -/
structure Config where
  /-- `N`, the strip length in pixels (R7). -/
  stripLen : Nat
  /-- `ENGINE_LIVE` (R10, 42_transfer_sync.md R142): false admits the engine's HANG step. -/
  engineLive : Bool
  deriving DecidableEq, Repr

/-- `1 <= N <= 2^22` (R7). -/
def Config.wf (c : Config) : Bool := decide (1 ≤ c.stripLen ∧ c.stripLen ≤ 4194304)

/-- The reference configuration: N = 144 (R7). ENGINE_LIVE is OPEN; false admits every step that true admits and HANG
besides (DESIGN CHOICE, log 5). -/
def Config.reference : Config := ⟨144, false⟩

/-- What happens next. `host`, `engine` and `hang` are the interleaved steps of 10_state.md R34 and 42_transfer_sync.md
R142; `issue` and `reset` are the host's other interactions (R146); the last three are the environment as free input
(60_exceptions.md R181, log 8). -/
inductive Turn where
  /-- The host issues one more command word, behind those it has issued already (R135, R146). -/
  | issue (w : Command)
  /-- The command at the head of the queue is offered to the block (R135). -/
  | host
  /-- The transfer engine takes its enabled step among ACCEPT, MOVE and DONE (R136 to R138). -/
  | engine
  /-- The transfer engine takes HANG, where it is enabled (R142). -/
  | hang
  /-- `rst`: the block and the engine are reset together (70_reset_and_hazards.md R190, R192). -/
  | reset
  /-- `rst` reaches the block only: the platform breaks its duty (R192, R200; 93_implementation_defined.md W4). -/
  | resetBlockOnly
  /-- A pulse of `xfer_done` that is not the engine's DONE step (R139, R181; W1, W2). -/
  | strayDone
  /-- A read through the DMA port that is not the engine's MOVE step (20_memory.md R60, R181; W3). -/
  | strayRead (raddr : BitVec 23)
  deriving DecidableEq, Repr, Inhabited

/-- A breach of the environment contract (42_transfer_sync.md R150; 93_implementation_defined.md section 3). -/
inductive Violation where
  /-- W1: `xfer_done` while BUSY = 0. -/
  | doneWhileIdle
  /-- W2: an `xfer_done` while BUSY = 1 that the engine's DONE step did not give. -/
  | strayDone
  /-- W3: a DMA read with `dma_raddr >= L`. -/
  | readOutOfRange
  /-- A DMA read inside the buffer that no transfer asked for (R150). -/
  | strayRead
  /-- W4: the block was reset without the engine. -/
  | engineNotReset
  deriving DecidableEq, Repr

/-- `draw32` (00_scope.md R13): the n-th draw of a run, any 32-bit value (20_memory.md R57, log 3). -/
opaque Config.draw : Nat → Word

/-- The order of the agents' steps where the list of turns says nothing (10_state.md R34, log 2). -/
opaque Config.freeTurn : Nat → Turn

/-- Under ENGINE_LIVE, how many turns may pass before the engine has one: some finite number, a new one each time
(42_transfer_sync.md R142, log 5). -/
opaque Config.engineGap : Nat → Nat

/-- `LAT_<op>` less one, by OP (70_reset_and_hazards.md R205: at least 1; log 9). -/
opaque Config.latencyLessOne : BitVec 4 → Nat

/-- What the DMA port reads in the n-th cycle of the cycle-level reference where it reads no defined word: any 32-bit value,
as `draw32` (R13; 20_memory.md R57, R60; log 9). -/
opaque Config.dmaDraw : Nat → Word

/-- `LAT_DMA_READ` is 1 (R207: 0 or 1; log 9). -/
opaque Config.dmaReadIsRegistered : Bool

/-- `BIT_CLOCK_HZ` of the serial generator, outside the block: any real number (R208, 92_eei_decisions.md; log 9). -/
opaque Config.bitClockHz : ℝ

end Sys2Proof
end

