-- ==== Sys2Proof/Machine/State.lean ====
section
/-! DEFINITION. The state of the block, the transfer engine and the run (10_state.md R20 to R36), and its reset. -/

namespace Sys2Proof.Machine

/-- Response codes (30_encoding.md R80). The reserved code `0b11` is never produced (R83), so it has no constructor. -/
inductive RspCode where
  /-- `0b00`: every legal command. -/
  | ok
  /-- `0b01`: OP in 8 to 15 (60_exceptions.md R171). -/
  | illOp
  /-- `0b10`: RSVD not 0 under OP 0 to 7 (60_exceptions.md R172). -/
  | illRsvd
  deriving DecidableEq, Repr

/-- One response: `rsp_code` and `rsp_data` (30_encoding.md R80). -/
structure Response where
  code : RspCode
  data : Word
  deriving DecidableEq, Repr

/-- Words by index, indices strictly rising; an index not listed reads as reset leaves it (log 4). -/
abbrev Memory := List (Nat × Word)

/-- Why a run stops. -/
inductive Fault where
  /-- Raised by `step` alone: a command is held, or the engine hangs with BUSY = 1, and no agent has an enabled step
  (42_transfer_sync.md R142, R148). Safe: the spec says such a state is stuck and not an end. -/
  | stuck
  deriving DecidableEq, Repr

/-- Why an instruction has no meaning. No arm of `exec` uses it: every instruction is modelled. -/
inductive Refusal where
  /-- The instruction of that mnemonic has no meaning yet. Safe: nothing follows from a refusal. -/
  | notModelled (mnemonic : String)
  deriving DecidableEq, Repr

/-- Everything the spec gives the machine, and three fields of the model's own (`turns`, `tick`, `draws`). -/
structure State where
  /-- The build-time parameters; no step changes them (log 1). -/
  cfg : Config
  /-- `buf` and `def` (R20, R29): the words written since reset (log 4). -/
  buf : Memory
  /-- `BUSY` (R25). -/
  busy : Bool
  /-- `startPending` (R28). -/
  startPending : Bool
  /-- `eng_active` (R31). -/
  engActive : Bool
  /-- `eng_ptr` (R31). -/
  engPtr : Nat
  /-- `eng_hung` (R31). -/
  engHung : Bool
  /-- `wire`, one list of words per accepted transfer, in order (R30). -/
  wire : List (List Word)
  /-- The host's command queue, head first (42_transfer_sync.md R135). -/
  cmds : List Command
  /-- The responses so far, in command order (30_encoding.md R80, R147). -/
  resps : List Response
  /-- The environment faults recorded so far, never cleared (60_exceptions.md R181). -/
  violations : List Violation
  /-- Model only: the turns chosen for the next steps (log 2). -/
  turns : List Turn
  /-- Model only: how many turns were taken that no list named (log 2). -/
  tick : Nat
  /-- Model only: how many draws were made (log 3). -/
  draws : Nat
  deriving DecidableEq, Repr

/-- The reset values of R36 under a given configuration; memory lists nothing. -/
def State.resetWith (c : Config) : State where
  cfg := c
  buf := []
  busy := false
  startPending := false
  engActive := false
  engPtr := 0
  engHung := false
  wire := []
  cmds := []
  resps := []
  violations := []
  turns := []
  tick := 0
  draws := 0

/-- The machine right after reset, `CleanEntry` (70_reset_and_hazards.md R211), in the reference configuration. -/
def State.reset : State := State.resetWith Config.reference

end Sys2Proof.Machine
end

