-- ==== Sys2Proof/Machine/Ops.lean ====
section
/-! DEFINITION. The named operations over the buffer and the run: the address map (00_scope.md R8, R9; 20_memory.md R59),
BufRead, BufWrite, draw32, respond, hold (00_scope.md R12, R13), the answer to an illegal command (60_exceptions.md R171,
R172) and reset (70_reset_and_hazards.md R190 to R192). -/

namespace Sys2Proof.Machine

/-- `E = ceil(N/64) = (N + 63) div 64` (R8). -/
def endLen (c : Config) : Nat := (c.stripLen + 63) / 64

/-- `L = 1 + N + E` (R9). -/
def bufLen (c : Config) : Nat := 1 + c.stripLen + endLen c

/-- The start-of-frame sentinel (30_encoding.md R85). -/
def startSentinel : Word := 0x00000000#32

/-- The end-of-frame sentinel (30_encoding.md R86). -/
def endSentinel : Word := 0xFFFFFFFF#32

/-- What a word nothing has written holds (R36, R190): the start word and the end words their sentinels, a pixel word, and
an index outside the buffer, no value. -/
def resetWord (c : Config) (i : Nat) : Option Word :=
  if i = 0 then some startSentinel
  else if i ≤ c.stripLen then none
  else if i < bufLen c then some endSentinel
  else none

/-- The listed value of index `i`. -/
def Memory.lookup : Memory → Nat → Option Word
  | [], _ => none
  | (j, w) :: m, i => if j = i then some w else Memory.lookup m i

/-- `m` with index `i` listed as `w`, in its place in the rising order. -/
def Memory.insert : Memory → Nat → Word → Memory
  | [], i, w => [(i, w)]
  | (j, v) :: m, i, w =>
    if i < j then (i, w) :: (j, v) :: m
    else if i = j then (i, w) :: m
    else (j, v) :: Memory.insert m i w

/-- `m` with index `i` not listed. -/
def Memory.erase : Memory → Nat → Memory
  | [], _ => []
  | (j, v) :: m, i => if j = i then m else (j, v) :: Memory.erase m i

/-- The word at index `i`, if it is defined: the listed value, else what reset leaves there. -/
def Memory.read (c : Config) (m : Memory) (i : Nat) : Option Word :=
  match m.lookup i with
  | some w => some w
  | none => resetWord c i

/-- `m` with `w` at index `i`; a value that reset leaves there is not listed, so the form stays canonical. -/
def Memory.write (c : Config) (m : Memory) (i : Nat) (w : Word) : Memory :=
  if resetWord c i = some w then m.erase i else m.insert i w

/-- `m` with `w` at the indices `1 .. n`, written in that order (41_framebuffer.md R114). -/
def Memory.fill (c : Config) (m : Memory) (w : Word) : Nat → Memory
  | 0 => m
  | n + 1 => Memory.write c (Memory.fill c m w n) (1 + n) w

/-- Indices strictly rise. -/
def Memory.rising : Memory → Bool
  | [] => true
  | [_] => true
  | (i, _) :: (j, v) :: m => decide (i < j) && Memory.rising ((j, v) :: m)

/-- The canonical form: strictly rising indices, and no entry equal to what an unlisted index reads as. -/
def Memory.wf (c : Config) (m : Memory) : Bool :=
  m.rising && m.all (fun p => decide (resetWord c p.1 ≠ some p.2))

/-- `buf[i]` where `def[i] = 1`, none where `def[i] = 0` (10_state.md R29). -/
def wordAt (s : State) (i : Nat) : Option Word := s.buf.read s.cfg i

/-- The ghost mark `def[i]` (10_state.md R29). -/
def isDefined (s : State) (i : Nat) : Bool := (wordAt s i).isSome

/-- `draw32` (R13): a free value, a new one at each use (log 3). -/
def draw32 (s : State) : Word × State := (Config.draw s.draws, { s with draws := s.draws + 1 })

/-- `BufRead(i)` (20_memory.md R57): the word where it is defined, a draw where it is not. -/
def bufRead (s : State) (i : Nat) : Word × State :=
  match wordAt s i with
  | some w => (w, s)
  | none => draw32 s

/-- `BufWrite(i, v)` (R12): the word is `v`, and defined. -/
def bufWrite (s : State) (i : Nat) (v : Word) : State := { s with buf := s.buf.write s.cfg i v }

/-- `dma_rdata` for `dma_raddr = a` (10_state.md R33): BufRead inside the buffer, a draw outside (20_memory.md R60). -/
def dmaRead (s : State) (a : Nat) : Word × State := if a < bufLen s.cfg then bufRead s a else draw32 s

/-- `respond(code, data)` (R13): the response is given and the command leaves the head of the queue. -/
def respond (code : RspCode) (data : Word) (s : State) : State :=
  { s with resps := s.resps ++ [⟨code, data⟩], cmds := s.cmds.tail }

/-- `hold` (R13, 42_transfer_sync.md R135): the command is not performed and no state changes. -/
def hold (s : State) : State := s

/-- The answer to an illegal command, its whole effect (60_exceptions.md R171, R172, R174). -/
def respondIllegal (code : RspCode) (s : State) : State := respond code 0#32 s

/-- Reset of the block (70_reset_and_hazards.md R190, R191, R193): every pixel word undefined, IDLE, an empty command queue,
an empty wire log. The responses already given stay given (log 7); the engine's elements are not the block's (R192). -/
def resetBlock (s : State) : State :=
  { s with buf := [], busy := false, startPending := false, wire := [], cmds := [] }

/-- Reset of the transfer engine (R192). -/
def resetEngine (s : State) : State := { s with engActive := false, engPtr := 0, engHung := false }

/-- The environment fault `v` is recorded; records are never cleared (60_exceptions.md R181). -/
def recordViolation (v : Violation) (s : State) : State := { s with violations := s.violations ++ [v] }

end Sys2Proof.Machine
end

