-- ==== Sys2Proof/Machine/Codec.lean ====
section
/-! DEFINITION. FrameCodec: the one place where a pixel word is assembled (40_codec.md R100, R104), and ENCODE. -/

namespace Sys2Proof.Machine

/-- `encode(r, g, b, bri)`: marker 111, the low five bits of the brightness, blue, green, red (R100, 30_encoding.md R84). -/
def frameWord (r g b bri : Byte) : Word := 0b111#3 ++ bri.extractLsb' 0 5 ++ b ++ g ++ r

/-- ENCODE (R105): never holds; answers the encoded word. -/
def execEncode (r g b bri : Byte) (s : State) : Host.Outcome State Fault Refusal :=
  .next (respond .ok (frameWord r g b bri) s)

end Sys2Proof.Machine
end

