-- ==== Sys2Proof/Syntax.lean ====
section
/-! DEFINITION. FCMD v1, the host's commands: one constructor per row of spec/opcode_table.json, holding exactly the
fields the row uses (30_encoding.md R77). Ignored fields (R76) are not part of an instruction. -/

namespace Sys2Proof

/-- The eight legal commands. `idx` is `sint(cmd[55:32])` (R73); `bri` keeps all 8 bits of BRI, of which only the low
five have an effect (R74). -/
inductive Instr where
  /-- NOP, OP 0x0 (42_transfer_sync.md R134). -/
  | nop
  /-- ENCODE, OP 0x1 (40_codec.md R105). -/
  | encode (r g b bri : Byte)
  /-- SET_PIXEL, OP 0x2 (41_framebuffer.md R113). -/
  | setPixel (idx : Int) (r g b bri : Byte)
  /-- SET_ALL, OP 0x3 (41_framebuffer.md R114). -/
  | setAll (r g b bri : Byte)
  /-- BEGIN_TRANSFER, OP 0x4 (42_transfer_sync.md R131). -/
  | beginTransfer
  /-- WAIT, OP 0x5 (42_transfer_sync.md R132). -/
  | wait
  /-- STATUS, OP 0x6 (42_transfer_sync.md R133). -/
  | status
  /-- READ_WORD, OP 0x7 (41_framebuffer.md R115). -/
  | readWord (idx : Int)
  deriving DecidableEq, Repr

end Sys2Proof
end

