-- ==== Sys2Proof/WellFormed.lean ====
section
/-! DEFINITION. Which instructions a command word can hold: the index fits the 24-bit two's complement INDEX field
(30_encoding.md R73). The byte fields are always in range (R75). -/

namespace Sys2Proof

/-- `-2^23 <= idx < 2^23`, the range of INDEX (R73). -/
abbrev indexInRange (idx : Int) : Prop := -8388608 ≤ idx ∧ idx < 8388608

/-- The instruction has an encoding: an index it carries is an INDEX value. -/
def Instr.wf : Instr → Bool
  | .nop => true
  | .encode _ _ _ _ => true
  | .setPixel idx _ _ _ _ => decide (indexInRange idx)
  | .setAll _ _ _ _ => true
  | .beginTransfer => true
  | .wait => true
  | .status => true
  | .readWord idx => decide (indexInRange idx)

end Sys2Proof
end

