-- ==== Sys2Proof/Decode.lean ====
section
/-! DEFINITION. Decoding of a 64-bit command word (30_encoding.md R70 to R79), total over all 2^64 words, and the encoder
of a well-formed instruction, with every ignored field 0 (R88). -/

namespace Sys2Proof

/-- What a command word is: a legal command, or one of the two illegal kinds (R78, R79). -/
inductive Decoded where
  /-- A legal command: OP in 0 to 7 and RSVD = 0. -/
  | legal (i : Instr)
  /-- OP in 8 to 15 (60_exceptions.md R171). -/
  | illOp
  /-- OP in 0 to 7 and RSVD not 0 (60_exceptions.md R172). -/
  | illRsvd
  deriving DecidableEq, Repr

/-- OP = `cmd[63:60]` (R71). -/
def opField (w : Command) : BitVec 4 := w.extractLsb' 60 4

/-- RSVD = `cmd[59:56]` (R72). -/
def rsvdField (w : Command) : BitVec 4 := w.extractLsb' 56 4

/-- INDEX = `cmd[55:32]` (R73). -/
def indexField (w : Command) : BitVec 24 := w.extractLsb' 32 24

/-- BRI = `cmd[31:24]` (R74). -/
def briField (w : Command) : Byte := w.extractLsb' 24 8

/-- B = `cmd[23:16]` (R75). -/
def blueField (w : Command) : Byte := w.extractLsb' 16 8

/-- G = `cmd[15:8]` (R75). -/
def greenField (w : Command) : Byte := w.extractLsb' 8 8

/-- R = `cmd[7:0]` (R75). -/
def redField (w : Command) : Byte := w.extractLsb' 0 8

/-- `idx = sint(cmd[55:32])` (R73). -/
def indexOf (w : Command) : Int := (indexField w).toInt

/-- R79: OP is checked first, then RSVD, then OP selects the command by the opcode map R77. -/
def decodeCommand (w : Command) : Decoded :=
  if 8 ≤ (opField w).toNat then .illOp
  else if rsvdField w ≠ 0#4 then .illRsvd
  else match (opField w).toNat with
    | 0 => .legal .nop
    | 1 => .legal (.encode (redField w) (greenField w) (blueField w) (briField w))
    | 2 => .legal (.setPixel (indexOf w) (redField w) (greenField w) (blueField w) (briField w))
    | 3 => .legal (.setAll (redField w) (greenField w) (blueField w) (briField w))
    | 4 => .legal .beginTransfer
    | 5 => .legal .wait
    | 6 => .legal .status
    | 7 => .legal (.readWord (indexOf w))
    | _ => .illOp

/-- The command word with the given fields and RSVD = 0 (R70). -/
def packCommand (op : BitVec 4) (index : BitVec 24) (bri b g r : Byte) : Command :=
  op ++ 0#4 ++ index ++ bri ++ b ++ g ++ r

/-- The 24-bit two's complement of an index (R73). -/
def packIndex (idx : Int) : BitVec 24 := BitVec.ofInt 24 idx

/-- The word of an instruction, unused fields 0 (R77, R88). -/
def encodeCommand : Instr → Command
  | .nop => packCommand 0x0#4 0#24 0#8 0#8 0#8 0#8
  | .encode r g b bri => packCommand 0x1#4 0#24 bri b g r
  | .setPixel idx r g b bri => packCommand 0x2#4 (packIndex idx) bri b g r
  | .setAll r g b bri => packCommand 0x3#4 0#24 bri b g r
  | .beginTransfer => packCommand 0x4#4 0#24 0#8 0#8 0#8 0#8
  | .wait => packCommand 0x5#4 0#24 0#8 0#8 0#8 0#8
  | .status => packCommand 0x6#4 0#24 0#8 0#8 0#8 0#8
  | .readWord idx => packCommand 0x7#4 (packIndex idx) 0#8 0#8 0#8 0#8

/-- The command word the opcode table's numbering gives: the bits of `w` below `nbits`, zeros above (R11, R70: a command
is one 64-bit word, so the table's number is the word). -/
def tableWord (nbits w : Nat) : Command := BitVec.ofNat 64 (w % 2 ^ nbits)

/-- The instruction the decoder reads from a word of the opcode table, none where it is illegal. -/
def decodeTableWord (nbits w : Nat) : Option Instr :=
  match decodeCommand (tableWord nbits w) with
  | .legal i => some i
  | .illOp => none
  | .illRsvd => none

end Sys2Proof
end

