-- ==== Sys2Proof/Machine/Flags.lean ====
section
/-! DEFINITION. BUSY, the only flag (10_state.md R25, R26): who waits on it, who sets and clears it, and the STATUS word
composed from it (R27). -/

namespace Sys2Proof.Machine

/-- BEGIN_TRANSFER's writes: BUSY <- 1 and the start event posted (42_transfer_sync.md R131). -/
def startTransfer (s : State) : State := { s with busy := true, startPending := true }

/-- What `xfer_done` does to the block: BUSY <- 0 (R138); it stays 0 if it was 0 (R139). -/
def takeDone (s : State) : State := { s with busy := false }

/-- The STATUS word: bit 0 is BUSY, bits [31:1] are 0 (R27, 30_encoding.md R82). -/
def statusWord (s : State) : Word := (BitVec.ofBool s.busy).setWidth 32

/-- The commands that hold while BUSY = 1 (30_encoding.md R77; 42_transfer_sync.md R130). -/
def needsIdle : Instr → Bool
  | .nop => false
  | .encode _ _ _ _ => false
  | .setPixel _ _ _ _ _ => true
  | .setAll _ _ _ _ => true
  | .beginTransfer => true
  | .wait => true
  | .status => false
  | .readWord _ => false

/-- The busy guard (41_framebuffer.md R110; 42_transfer_sync.md R135): a command that needs BUSY = 0 is performed only then,
and otherwise holds. -/
def whenIdle (s : State) (perform : State → State) : State := if s.busy then hold s else perform s

end Sys2Proof.Machine
end

