-- ==== Sys2Proof/Machine/Operands.lean ====
section
/-! DEFINITION. The two operand forms that name a buffer word: a pixel index (41_framebuffer.md R111, R112; 10_state.md
R24) and a word index (41_framebuffer.md R115). Comparisons are signed and exact (00_scope.md R11). -/

namespace Sys2Proof.Machine

/-- The buffer word a pixel index names: `1 + idx` for `0 <= idx < N`, none outside (R111, R112). -/
def pixelAddress (c : Config) (idx : Int) : Option Nat :=
  if 0 ≤ idx ∧ idx < (c.stripLen : Int) then some (1 + idx.toNat) else none

/-- The buffer word a READ_WORD index names: `idx` for `0 <= idx < L`, none outside (R115, 20_memory.md R60). -/
def wordAddress (c : Config) (idx : Int) : Option Nat :=
  if 0 ≤ idx ∧ idx < (bufLen c : Int) then some idx.toNat else none

end Sys2Proof.Machine
end

