-- ==== Sys2Proof/Machine/FrameBuffer.lean ====
section
/-! DEFINITION. The FrameBuffer commands and their write guards (41_framebuffer.md R110 to R115). -/

namespace Sys2Proof.Machine

/-- The pixel write of SET_PIXEL: an index outside `[0, N)` writes nothing (R111). -/
def writePixel (idx : Int) (w : Word) (s : State) : State :=
  match pixelAddress s.cfg idx with
  | some a => bufWrite s a w
  | none => s

/-- SET_PIXEL (R113): holds while BUSY = 1 whatever the index (R110). -/
def execSetPixel (idx : Int) (r g b bri : Byte) (s : State) : Host.Outcome State Fault Refusal :=
  .next (whenIdle s fun s => respond .ok 0#32 (writePixel idx (frameWord r g b bri) s))

/-- The loop of SET_ALL: every pixel word, and no other (R114). -/
def writeAllPixels (w : Word) (s : State) : State := { s with buf := s.buf.fill s.cfg w s.cfg.stripLen }

/-- SET_ALL (R114): holds while BUSY = 1; one atomic step. -/
def execSetAll (r g b bri : Byte) (s : State) : Host.Outcome State Fault Refusal :=
  .next (whenIdle s fun s => respond .ok 0#32 (writeAllPixels (frameWord r g b bri) s))

/-- The read of READ_WORD: an index outside `[0, L)` reads 0 (R115, 20_memory.md R60). -/
def readIndexed (idx : Int) (s : State) : Word × State :=
  match wordAddress s.cfg idx with
  | some a => bufRead s a
  | none => (0#32, s)

/-- READ_WORD (R115): never holds; OK in every case. -/
def execReadWord (idx : Int) (s : State) : Host.Outcome State Fault Refusal :=
  let r := readIndexed idx s
  .next (respond .ok r.1 r.2)

end Sys2Proof.Machine
end

