-- ==== Sys2Proof/Machine/Synchronizer.lean ====
section
/-! DEFINITION. The TransferSynchronizer's commands (42_transfer_sync.md R131 to R134). -/

namespace Sys2Proof.Machine

/-- BEGIN_TRANSFER (R131): holds while BUSY = 1; the test and the set of BUSY are one step. -/
def execBeginTransfer (s : State) : Host.Outcome State Fault Refusal :=
  .next (whenIdle s fun s => respond .ok 0#32 (startTransfer s))

/-- WAIT (R132): holds while BUSY = 1, then answers; writes nothing. -/
def execWait (s : State) : Host.Outcome State Fault Refusal :=
  .next (whenIdle s fun s => respond .ok 0#32 s)

/-- STATUS (R133): never holds; answers the STATUS word. -/
def execStatus (s : State) : Host.Outcome State Fault Refusal :=
  .next (respond .ok (statusWord s) s)

/-- NOP (R134): never holds; answers 0. -/
def execNop (s : State) : Host.Outcome State Fault Refusal :=
  .next (respond .ok 0#32 s)

end Sys2Proof.Machine
end

