-- ==== Sys2Proof/Machine/Dispatch.lean ====
section
/-! DEFINITION. One arm per command, each a direct call of its meaning. -/

namespace Sys2Proof.Machine

def exec (i : Instr) (s : State) : Host.Outcome State Fault Refusal :=
  match i with
  | .nop => Sys2Proof.Machine.execNop s
  | .encode r g b bri => Sys2Proof.Machine.execEncode r g b bri s
  | .setPixel idx r g b bri => Sys2Proof.Machine.execSetPixel idx r g b bri s
  | .setAll r g b bri => Sys2Proof.Machine.execSetAll r g b bri s
  | .beginTransfer => Sys2Proof.Machine.execBeginTransfer s
  | .wait => Sys2Proof.Machine.execWait s
  | .status => Sys2Proof.Machine.execStatus s
  | .readWord idx => Sys2Proof.Machine.execReadWord idx s

end Sys2Proof.Machine
end

