-- ==== Sys2Proof/Machine/Engine.lean ====
section
/-! DEFINITION. The transfer engine, an environment agent (42_transfer_sync.md R136 to R142), and the environment as free
input (R139; 60_exceptions.md R181). -/

namespace Sys2Proof.Machine

/-- ACCEPT is enabled (R136; R142 adds that the engine does not hang). -/
def canAccept (s : State) : Bool := !s.engHung && s.startPending && !s.engActive

/-- MOVE is enabled (R137, R142). -/
def canMove (s : State) : Bool := !s.engHung && s.engActive && decide (s.engPtr < bufLen s.cfg)

/-- DONE is enabled (R138, R142). -/
def canDone (s : State) : Bool := !s.engHung && s.engActive && decide (s.engPtr = bufLen s.cfg)

/-- HANG is enabled: only where ENGINE_LIVE is false (R142). -/
def canHang (s : State) : Bool := !s.engHung && !s.cfg.engineLive && (s.startPending || s.engActive)

/-- Some engine step is enabled. -/
def engineEnabled (s : State) : Bool := canAccept s || canMove s || canDone s || canHang s

/-- `w` at the end of the last frame of the wire log (10_state.md R30). A log with no frame stays as it is: only an engine
that was not reset with the block can move a word then (log 8). -/
def appendToLastFrame (w : Word) : List (List Word) → List (List Word)
  | [] => []
  | [f] => [f ++ [w]]
  | f :: g :: fs => f :: appendToLastFrame w (g :: fs)

/-- ACCEPT (R136): the engine takes the start pulse and opens a new frame. -/
def engineAccept (s : State) : State :=
  { s with startPending := false, engActive := true, engPtr := 0, wire := s.wire ++ [[]] }

/-- MOVE (R137): the word at the pointer goes to the last frame and the pointer rises by one. -/
def engineMove (s : State) : State :=
  let r := dmaRead s s.engPtr
  { r.2 with engPtr := s.engPtr + 1, wire := appendToLastFrame r.1 s.wire }

/-- DONE (R138): the engine stops and its `xfer_done` clears BUSY, in one step. After an earlier breach, which is on record, BUSY
may be 0 by then or be a newer transfer's: R138 gives DONE no record of its own, and none is added (DESIGN CHOICE, log 8). -/
def engineDone (s : State) : State := takeDone { s with engActive := false }

/-- HANG (R142): the engine never steps again. -/
def engineHang (s : State) : State := { s with engHung := true }

/-- The engine's turn: its enabled step among ACCEPT, MOVE and DONE, of which at most one is enabled; none is a wait. -/
def engineStep (s : State) : State :=
  if canAccept s then engineAccept s
  else if canMove s then engineMove s
  else if canDone s then engineDone s
  else s

/-- The turn of HANG, where it is enabled. -/
def hangStep (s : State) : State := if canHang s then engineHang s else s

/-- `rst` to the block and the engine together (70_reset_and_hazards.md R190, R192). -/
def resetTogether (s : State) : State := resetEngine (resetBlock s)

/-- `rst` to the block alone (R192, R200; W4): the engine goes on, and the violation is recorded. -/
def resetBlockAlone (s : State) : State := recordViolation .engineNotReset (resetBlock s)

/-- An `xfer_done` that is not the engine's DONE step (R139, R181; W1, W2): ignored while BUSY = 0, clears BUSY otherwise. -/
def strayDonePulse (s : State) : State :=
  recordViolation (if s.busy then .strayDone else .doneWhileIdle) (takeDone s)

/-- A DMA read that is not the engine's MOVE step (20_memory.md R60; 42_transfer_sync.md R150; W3). -/
def strayDmaRead (a : BitVec 23) (s : State) : State :=
  recordViolation (if a.toNat < bufLen s.cfg then .strayRead else .readOutOfRange) (dmaRead s a.toNat).2

end Sys2Proof.Machine
end

