-- ==== Sys2Proof/Machine/Turns.lean ====
section
/-! DEFINITION. The interleaving of 00_scope.md R15 and 10_state.md R34: whose turn it is, the command at the head of the
queue (42_transfer_sync.md R135), the end of a run and the stuck states (R148). -/

namespace Sys2Proof.Machine

/-- Under ENGINE_LIVE, how many of the turns that no list names still pass, at the n-th of them, before one is the
engine's: the count runs down from a free value, and starts anew behind each turn of the engine (log 5). -/
def engineWait : Nat → Nat
  | 0 => Config.engineGap 0
  | n + 1 =>
    match engineWait n with
    | 0 => Config.engineGap (n + 1)
    | k + 1 => k

/-- The n-th turn that no list names: a free value (log 2), but that ENGINE_LIVE gives the engine a turn again and again,
so that an engine step that stays enabled is taken (42_transfer_sync.md R142). -/
def openTurn (c : Config) (n : Nat) : Turn :=
  if c.engineLive && engineWait n == 0 then .engine else Config.freeTurn n

/-- The next turn, and the state with that turn taken: the head of the list of turns, else an open turn (log 2). -/
def nextTurn (s : State) : Turn × State :=
  match s.turns with
  | t :: ts => (t, { s with turns := ts })
  | [] => (openTurn s.cfg s.tick, { s with tick := s.tick + 1 })

/-- A command word offered to the block: a legal command is its meaning, an illegal one is answered at once
(30_encoding.md R79; 60_exceptions.md R173). -/
def offer (w : Command) (s : State) : Host.Outcome State Fault Refusal :=
  match decodeCommand w with
  | .legal i => exec i s
  | .illOp => .next (respondIllegal .illOp s)
  | .illRsvd => .next (respondIllegal .illRsvd s)

/-- The host's turn: the head of its queue is offered; with an empty queue nothing happens (R135). -/
def performHead (s : State) : Host.Outcome State Fault Refusal :=
  match s.cmds with
  | [] => .next s
  | w :: _ => offer w s

/-- The word holds while BUSY = 1: it decodes to a command that needs BUSY = 0 (70_reset_and_hazards.md R205). -/
def wordNeedsIdle (w : Command) : Bool :=
  match decodeCommand w with
  | .legal i => needsIdle i
  | .illOp => false
  | .illRsvd => false

/-- The host has a command at the head of its queue that does not hold (R135). -/
def hostEnabled (s : State) : Bool :=
  match s.cmds with
  | [] => false
  | w :: _ => !(wordNeedsIdle w && s.busy)

/-- The end of a run (R148): no command left, no engine step enabled, and not BUSY = 1 with a hung engine. -/
def ended (s : State) : Bool := s.cmds.isEmpty && !engineEnabled s && !(s.busy && s.engHung)

/-- Stuck (R142, R148): no step of host or engine is enabled, and the run has not ended. -/
def stuck (s : State) : Bool := !hostEnabled s && !engineEnabled s && !ended s

/-- One turn. A host or engine turn in a stuck state is the fault; reset and the other inputs come at any time (R146). -/
def turnStep (t : Turn) (s : State) : Host.Outcome State Fault Refusal :=
  match t with
  | .issue w => .next { s with cmds := s.cmds ++ [w] }
  | .host => if stuck s then .fault .stuck else performHead s
  | .engine => if stuck s then .fault .stuck else .next (engineStep s)
  | .hang => if stuck s then .fault .stuck else .next (hangStep s)
  | .reset => .next (resetTogether s)
  | .resetBlockOnly => .next (resetBlockAlone s)
  | .strayDone => .next (strayDonePulse s)
  | .strayRead a => .next (strayDmaRead a s)

/-- The command word `w` in the place the host's next turn takes it from, and that turn next. -/
def placeCommand (w : Command) (s : State) : State :=
  { s with cmds := w :: s.cmds.tail, turns := .host :: s.turns }

end Sys2Proof.Machine
end

