-- ==== Sys2Proof/Machine/Step.lean ====
section
/-! DEFINITION. One step of the machine: one transition of the interleaving (00_scope.md R15). -/

namespace Sys2Proof.Machine

/-- The turn that comes next, taken. -/
def step (s : State) : Host.Outcome State Fault Refusal := turnStep (nextTurn s).1 (nextTurn s).2

/-- `s` with the command of the opcode table's word at the head of the host's queue and the host's turn next (log 6). -/
def State.withFetchWord (s : State) (nbits w : Nat) : State := placeCommand (tableWord nbits w) s

end Sys2Proof.Machine
end

