-- ==== Sys2Proof/Machine/Assembler.lean ====
section
/-! DEFINITION. The assembler of 30_encoding.md R88 (one command a line) and R89 (packing of operands, pseudo-commands).
Text is a list of characters. -/

namespace Sys2Proof.Machine

/-- One line of a program, its operands any integers (R88, R89). -/
inductive AsmLine where
  | nop
  | encode (r g b bri : Int)
  | setPix (idx r g b bri : Int)
  | setAll (r g b bri : Int)
  | beginXfer
  | wait
  | status
  | rdWord (idx : Int)
  | cmd (w : Command)
  | clear
  | flush
  | showFrame
  deriving DecidableEq, Repr

/-- A channel or brightness operand: its low 8 bits (R89 a). -/
def packByte (v : Int) : Byte := BitVec.ofInt 8 v

/-- An index operand: itself inside the range of INDEX, `-1` outside (R89 b). -/
def clampIndex (idx : Int) : Int := if indexInRange idx then idx else -1

/-- The command words of a line (R88, R89). -/
def assemble : AsmLine → List Command
  | .nop => [encodeCommand .nop]
  | .encode r g b bri => [encodeCommand (.encode (packByte r) (packByte g) (packByte b) (packByte bri))]
  | .setPix idx r g b bri =>
    [encodeCommand (.setPixel (clampIndex idx) (packByte r) (packByte g) (packByte b) (packByte bri))]
  | .setAll r g b bri => [encodeCommand (.setAll (packByte r) (packByte g) (packByte b) (packByte bri))]
  | .beginXfer => [encodeCommand .beginTransfer]
  | .wait => [encodeCommand .wait]
  | .status => [encodeCommand .status]
  | .rdWord idx => [encodeCommand (.readWord (clampIndex idx))]
  | .cmd w => [w]
  | .clear => [encodeCommand (.setAll 0#8 0#8 0#8 0#8)]
  | .flush => [encodeCommand .beginTransfer]
  | .showFrame => [encodeCommand .beginTransfer, encodeCommand .wait]

/-- The value of one digit in a base. -/
def digitValue (base : Nat) (c : Char) : Option Nat :=
  let n := c.toNat
  let d := if 48 ≤ n ∧ n ≤ 57 then n - 48
    else if 97 ≤ n ∧ n ≤ 102 then n - 87
    else if 65 ≤ n ∧ n ≤ 70 then n - 55
    else base
  if d < base then some d else none

/-- The digits that follow a number read so far. -/
def readDigits (base : Nat) : Nat → List Char → Option Nat
  | acc, [] => some acc
  | acc, c :: cs =>
    match digitValue base c with
    | some d => readDigits base (acc * base + d) cs
    | none => none

/-- A number without a sign, decimal or `0x` hexadecimal (R88). -/
def readNat : List Char → Option Nat
  | [] => none
  | '0' :: 'x' :: c :: cs => readDigits 16 0 (c :: cs)
  | cs => readDigits 10 0 cs

/-- An operand (R88; a negative one as R89 packs it). -/
def readInt : List Char → Option Int
  | '-' :: cs => (readNat cs).map fun n => -(n : Int)
  | cs => (readNat cs).map fun n => (n : Int)

/-- The operand of `.cmd`: `0x` and sixteen hexadecimal digits (R88). -/
def readCommandWord : List Char → Option Command
  | '0' :: 'x' :: cs => if cs.length = 16 then (readDigits 16 0 cs).map (BitVec.ofNat 64) else none
  | _ => none

/-- White space between the parts of a line. -/
def isBlank (c : Char) : Bool := c == ' ' || c == '\t' || c == '\r'

/-- A part of a line without the blanks around it. -/
def trimBlanks (cs : List Char) : List Char := ((cs.dropWhile isBlank).reverse.dropWhile isBlank).reverse

/-- The parts of an operand list between its commas. -/
def splitCommas : List Char → List (List Char)
  | [] => [[]]
  | c :: cs =>
    if c = ',' then [] :: splitCommas cs
    else match splitCommas cs with
      | [] => [[c]]
      | p :: ps => (c :: p) :: ps

/-- The operands after a mnemonic: none, or integers between commas. -/
def readOperands (cs : List Char) : Option (List Int) :=
  if trimBlanks cs = [] then some [] else ((splitCommas cs).map trimBlanks).mapM readInt

/-- A capital letter as its small one (mnemonics are case-insensitive, R88). -/
def lowerCase (c : Char) : Char := if 65 ≤ c.toNat ∧ c.toNat ≤ 90 then Char.ofNat (c.toNat + 32) else c

/-- A mnemonic with its operands (R88, R89). -/
def readCommandLine (mnemonic rest : List Char) : Option AsmLine :=
  if mnemonic = ['.', 'c', 'm', 'd'] then (readCommandWord (trimBlanks rest)).map .cmd
  else match readOperands rest with
    | none => none
    | some ops =>
      if mnemonic = ['n', 'o', 'p'] ∧ ops = [] then some .nop
      else if mnemonic = ['b', 'e', 'g', 'i', 'n'] ∧ ops = [] then some .beginXfer
      else if mnemonic = ['w', 'a', 'i', 't'] ∧ ops = [] then some .wait
      else if mnemonic = ['s', 't', 'a', 't', 'u', 's'] ∧ ops = [] then some .status
      else if mnemonic = ['c', 'l', 'e', 'a', 'r'] ∧ ops = [] then some .clear
      else if mnemonic = ['f', 'l', 'u', 's', 'h'] ∧ ops = [] then some .flush
      else if mnemonic = ['s', 'h', 'o', 'w'] ∧ ops = [] then some .showFrame
      else match ops with
        | [idx] => if mnemonic = ['r', 'd', 'w', 'o', 'r', 'd'] then some (.rdWord idx) else none
        | [r, g, b, bri] =>
          if mnemonic = ['e', 'n', 'c', 'o', 'd', 'e'] then some (.encode r g b bri)
          else if mnemonic = ['s', 'e', 't', 'a', 'l', 'l'] then some (.setAll r g b bri)
          else none
        | [idx, r, g, b, bri] =>
          if mnemonic = ['s', 'e', 't', 'p', 'i', 'x'] then some (.setPix idx r g b bri) else none
        | _ => none

/-- One line of source text: a command before `;`, or nothing (R88). None where it is not of the syntax; some [] for an
empty or comment line. -/
def readLine (line : List Char) : Option (List AsmLine) :=
  let code := trimBlanks (line.takeWhile fun c => c != ';')
  if code = [] then some []
  else (readCommandLine ((code.takeWhile fun c => !isBlank c).map lowerCase) (code.dropWhile fun c => !isBlank c)).map
    fun l => [l]

/-- A program's command words, line by line (R88). -/
def assembleText (lines : List (List Char)) : Option (List Command) :=
  (lines.mapM readLine).map fun ls => (ls.flatten.map assemble).flatten

end Sys2Proof.Machine
end

