-- ==== Sys2Proof/Machine/Ports.lean ====
section
/-! DEFINITION. The block's ports as functions of the state (10_state.md R33, R35), the serial order of a frame (20_memory.md
R54), and the equations of the informative cycle-level reference (70_reset_and_hazards.md R204 to R210, log 9). -/

namespace Sys2Proof.Machine

/-- `rsp_code` (30_encoding.md R80). -/
def rspCodeBits : RspCode → BitVec 2
  | .ok => 0b00#2
  | .illOp => 0b01#2
  | .illRsvd => 0b10#2

/-- `busy_o` (R35). -/
def busyOut (s : State) : Bool := s.busy

/-- `xfer_len`, the constant `L` in 23 bits (R33). -/
def xferLen (c : Config) : BitVec 23 := BitVec.ofNat 23 (bufLen c)

/-- `dma_rdata` for a `dma_raddr` (R33; 20_memory.md R60), with the state after a draw where there is one. -/
def dmaRdata (s : State) (a : BitVec 23) : Word × State := dmaRead s a.toNat

/-- `needsIdle(cmd)` on the bits of the word, as R205 gives it. -/
def needsIdleBits (w : Command) : Bool :=
  (opField w == 0x2#4 || opField w == 0x3#4 || opField w == 0x4#4 || opField w == 0x5#4) && rsvdField w == 0#4

/-- `cmd_ready` (R205). -/
def cmdReady (rst rspPending : Bool) (cmdWord : Command) (s : State) : Bool :=
  !rst && !rspPending && !(needsIdleBits cmdWord && s.busy)

/-- The offered command is accepted in this cycle (R205). -/
def cmdAccepted (rst rspPending cmdValid : Bool) (cmdWord : Command) (s : State) : Bool :=
  cmdValid && cmdReady rst rspPending cmdWord s

/-- `beginAcc` (R206): a BEGIN_TRANSFER is accepted in this cycle (R205). -/
def beginAcc (rst rspPending cmdValid : Bool) (cmdWord : Command) (s : State) : Bool :=
  cmdAccepted rst rspPending cmdValid cmdWord s && decide (decodeCommand cmdWord = .legal .beginTransfer)

/-- `BUSY'` (R206). -/
def busyNext (rst beginAcc xferDone busy : Bool) : Bool :=
  if rst then false else if beginAcc then true else if xferDone then false else busy

/-- `xfer_start'` (R206). -/
def xferStartNext (rst beginAcc : Bool) : Bool := !rst && beginAcc

/-- `LAT_<op>`, at least 1 (R205). -/
def latency (op : BitVec 4) : Nat := Config.latencyLessOne op + 1

/-- The cycle in which the response of a command accepted in cycle `t` is first offered (R205). -/
def responseCycle (t : Nat) (cmdWord : Command) : Nat := t + latency (opField cmdWord)

/-- `LAT_DMA_READ`, 0 or 1 (R207). -/
def latencyDmaRead : Nat := if Config.dmaReadIsRegistered then 1 else 0

/-- The bits of one word on the serial line, bit 31 first (R54). -/
def wordBits (w : Word) : List Bool := (List.range 32).map fun k => w.getLsbD (31 - k)

/-- The bits of one frame on the serial line (R54). -/
def frameBits (f : List Word) : List Bool := f.flatMap wordBits

/-- Bit clocks of one frame, `32 * L` (R209). -/
def frameBitClocks (c : Config) : Nat := 32 * bufLen c

/-- One frame takes `t` seconds at a bit clock of `hz`: `t * hz` bit clocks pass in that time (R209). -/
def frameLasts (hz : ℝ) (c : Config) (t : ℝ) : Prop := t * hz = frameBitClocks c

/-- One frame takes `t` seconds on the platform's generator (R208, R209). -/
def frameDuration (c : Config) (t : ℝ) : Prop := frameLasts Config.bitClockHz c t

end Sys2Proof.Machine
end

