-- ==== Sys2Proof/Machine/Cycle.lean ====
section
/-! DEFINITION. The informative cycle-level reference as a machine of its own (70_reset_and_hazards.md R204 to R207, log 9):
the command and response handshake, BUSY as a register, and the DMA read port with its latency. `step` does not use it. -/

namespace Sys2Proof.Machine

/-- The block's inputs in one clock cycle (10_state.md R33). -/
structure CycleIn where
  rst : Bool
  cmdValid : Bool
  cmdWord : Command
  rspReady : Bool
  xferDone : Bool
  dmaRaddr : BitVec 23
  deriving DecidableEq, Repr

/-- The response of an accepted command, and the cycles until it is offered (R205). -/
structure Pending where
  rsp : Response
  wait : Nat
  deriving DecidableEq, Repr

/-- The block between two clock edges. In `block`, `resps` are the responses the host has taken; the transfer engine is
outside and its fields stand still. -/
structure CycleState where
  block : State
  /-- The transaction in flight: `rspPending` is 1 exactly while there is one (R205; 10_state.md R32). -/
  pending : Option Pending
  /-- The register of the `xfer_start` pulse (R206). -/
  xferStart : Bool
  /-- The word the DMA port read in the cycle before: `dma_rdata` where `LAT_DMA_READ` is 1 (R207). -/
  dmaReg : Word
  /-- Model only: how many cycles the DMA port has read, so that each draws a new free value (log 9). -/
  dmaReads : Nat
  deriving DecidableEq, Repr

/-- After reset no command is accepted and unanswered, and `xfer_start = 0` (10_state.md R36). The spec gives no word that
the DMA port has read before: a free value (log 9). -/
def CycleState.resetWith (c : Config) : CycleState := ⟨State.resetWith c, none, false, Config.dmaDraw 0, 1⟩

/-- `rspPending`: 1 from a command's acceptance until its response has been taken (R205). -/
def rspPending (c : CycleState) : Bool := c.pending.isSome

/-- `rsp_valid`: the pending response is offered once its latency has passed (R205). -/
def rspValid (c : CycleState) : Bool :=
  match c.pending with
  | some p => p.wait == 0
  | none => false

/-- `cmd_ready` in this cycle (R205). It is 0 all through a SET_ALL of many cycles, whose response is pending till then. -/
def readyNow (i : CycleIn) (c : CycleState) : Bool := cmdReady i.rst (rspPending c) i.cmdWord c.block

/-- The offered command is accepted in this cycle (R205). -/
def acceptsNow (i : CycleIn) (c : CycleState) : Bool := cmdAccepted i.rst (rspPending c) i.cmdValid i.cmdWord c.block

/-- A BEGIN_TRANSFER is accepted in this cycle (R206). -/
def beginsNow (i : CycleIn) (c : CycleState) : Bool := beginAcc i.rst (rspPending c) i.cmdValid i.cmdWord c.block

/-- The response is taken in this cycle: `rsp_valid` and `rsp_ready` are both 1 (R205; 10_state.md R33). -/
def takenNow (i : CycleIn) (c : CycleState) : Bool := rspValid c && i.rspReady

/-- The effect of a command on the block, and its response, which the host has not taken yet. The queue is the host's and
stays. -/
def acceptWord (w : Command) (s : State) : Option (State × Response) :=
  match offer w s with
  | .next t => (t.resps.drop s.resps.length).head?.map fun r => ({ t with resps := s.resps, cmds := s.cmds }, r)
  | .fault _ => none
  | .refused _ => none

/-- The block with the pending response given, where the host takes it in this cycle. -/
def giveResponse (i : CycleIn) (c : CycleState) : State :=
  match c.pending with
  | some p => if takenNow i c then { c.block with resps := c.block.resps ++ [p.rsp] } else c.block
  | none => c.block

/-- The transaction in flight at the end of a cycle that accepts no command: the response is held until it is taken (R205). -/
def holdResponse (i : CycleIn) (c : CycleState) : Option Pending :=
  if takenNow i c then none else c.pending.map fun p => ⟨p.rsp, p.wait - 1⟩

/-- `xfer_done` at the end of a cycle that accepts no BEGIN_TRANSFER clears BUSY (R206). -/
def clearBusy (xferDone : Bool) (s : State) : State := if xferDone then takeDone s else s

/-- The word the DMA port reads in this cycle for its `dma_raddr`: the buffer's where it is defined there, else a draw, outside
the buffer as well (10_state.md R33; 20_memory.md R57, R60). -/
def portRead (i : CycleIn) (c : CycleState) : Word :=
  if i.dmaRaddr.toNat < bufLen c.block.cfg then (wordAt c.block i.dmaRaddr.toNat).getD (Config.dmaDraw c.dmaReads)
  else Config.dmaDraw c.dmaReads

/-- `dma_rdata` in this cycle (R207): the answer to this cycle's `dma_raddr`, or to that of the cycle before, as
`LAT_DMA_READ` is 0 or 1. -/
def dmaRdataNow (i : CycleIn) (c : CycleState) : Word := if latencyDmaRead = 0 then portRead i c else c.dmaReg

/-- One rising edge of `clk`. A reset drops the transaction in flight (R190); otherwise an accepted command is performed on
the old BUSY (R204) and its response is offered `LAT_<op>` cycles later (R205). The DMA port's
word of this cycle is registered in every case (R207). -/
def cycle (c : CycleState) (i : CycleIn) : CycleState :=
  if i.rst then ⟨resetBlock (giveResponse i c), none, false, portRead i c, c.dmaReads + 1⟩
  else match (if acceptsNow i c then acceptWord i.cmdWord c.block else none) with
    | some (t, r) => ⟨clearBusy (i.xferDone && !beginsNow i c) t, some ⟨r, latency (opField i.cmdWord) - 1⟩, beginsNow i c,
      portRead i c, c.dmaReads + 1⟩
    | none => ⟨clearBusy i.xferDone (giveResponse i c), holdResponse i c, false, portRead i c, c.dmaReads + 1⟩

/-- The block after some clock edges. -/
def cycles (c : CycleState) (is : List CycleIn) : CycleState := is.foldl cycle c

end Sys2Proof.Machine
end

