-- ==== Sys2Proof/Safety.lean ====
section
/-! DEFINITION. The invariants the statements are about: what holds in every state of a run, and what holds as long as
the environment has kept its contract (60_exceptions.md R181). -/

namespace Sys2Proof.Machine

/-- `buf[0]` and the end words hold their sentinels (10_state.md R22, R23; 41_framebuffer.md R117). -/
def RegionsIntact (s : State) : Prop :=
  wordAt s 0 = some 0x00000000#32 ∧
  ∀ i, s.cfg.stripLen < i → i < bufLen s.cfg → wordAt s i = some 0xFFFFFFFF#32

/-- The two sentinel regions of `t` read as those of `s` do. -/
def SameSentinels (s t : State) : Prop :=
  wordAt t 0 = wordAt s 0 ∧ ∀ i, s.cfg.stripLen < i → i < bufLen s.cfg → wordAt t i = wordAt s i

/-- Only pixel words are listed: nothing else was ever written (41_framebuffer.md R112, R116). -/
def OnlyPixelsWritten (s : State) : Prop :=
  ∀ p ∈ s.buf, 1 ≤ p.1 ∧ p.1 ≤ s.cfg.stripLen

/-- Every written word has the marker 111 (41_framebuffer.md R119). -/
def WrittenWordsMarked (s : State) : Prop :=
  ∀ p ∈ s.buf, p.2.extractLsb' 29 3 = 0b111#3

/-- The serialization invariant of 42_transfer_sync.md R143. -/
def Serialized (s : State) : Prop :=
  s.busy = (s.startPending || s.engActive) ∧ ¬(s.startPending = true ∧ s.engActive = true)

/-- `f` agrees with the defined words of the buffer over its whole length (42_transfer_sync.md R144). -/
def FrameAgrees (s : State) (f : List Word) : Prop :=
  ∀ (i : Nat) (w : Word), i < f.length → wordAt s i = some w → f[i]? = some w

/-- The frames whose transfer has reached DONE: all but the one an active engine is filling (R136, R138). -/
def completedFrames (s : State) : List (List Word) := if s.engActive then s.wire.dropLast else s.wire

/-- The engine's pointer and the frame it fills (10_state.md R31; R137, R62): as many words as the pointer says, each
the buffer's where the buffer's is defined. -/
def FrameInProgress (s : State) : Prop :=
  s.engPtr ≤ bufLen s.cfg ∧
  (s.engActive = true → ∃ fs f, s.wire = fs ++ [f] ∧ f.length = s.engPtr ∧ FrameAgrees s f)

/-- Every completed frame has exactly `L` words (R144), the sentinels in their places. -/
def FramesComplete (s : State) : Prop :=
  ∀ f ∈ completedFrames s, f.length = bufLen s.cfg ∧ f[0]? = some 0x00000000#32 ∧
    ∀ i, s.cfg.stripLen < i → i < bufLen s.cfg → f[i]? = some 0xFFFFFFFF#32

/-- A hung engine hangs inside a transfer, and only where ENGINE_LIVE is false (42_transfer_sync.md R142). -/
def HangsInTransfer (s : State) : Prop := s.engHung = true → s.busy = true ∧ s.cfg.engineLive = false

/-- What holds as long as no environment fault is recorded. -/
def Contract (s : State) : Prop :=
  s.violations = [] → Serialized s ∧ FrameInProgress s ∧ FramesComplete s ∧ HangsInTransfer s

/-- The states of the admitted executions (70_reset_and_hazards.md R211; 42_transfer_sync.md R147): from the launch state
with any program and any turns, by steps. -/
inductive Reachable : State → Prop where
  | launch (c : Config) (program : List Command) (turns : List Turn) (h : c.wf = true) :
      Reachable { State.resetWith c with cmds := program, turns := turns }
  | step (s t : State) (h : Reachable s) (hs : Machine.step s = .next t) : Reachable t

/-- From `s` to `t` by steps, BUSY = 1 and no environment fault recorded all the way: one and the same transfer is in
flight (20_memory.md R62). -/
inductive Draining : State → State → Prop where
  | start (s : State) (hb : s.busy = true) (hv : s.violations = []) : Draining s s
  | step (s t u : State) (h : Draining s t) (hs : Machine.step t = .next u) (hb : u.busy = true)
      (hv : u.violations = []) : Draining s u

/-- The engine's steps other than HANG (42_transfer_sync.md R136 to R138). -/
inductive EngineAction where
  | accept
  | move
  | done
  deriving DecidableEq, Repr

/-- The step's guard. -/
def EngineAction.enabled : EngineAction → State → Bool
  | .accept => canAccept
  | .move => canMove
  | .done => canDone

/-- The step's effect. -/
def EngineAction.effect : EngineAction → State → State
  | .accept => engineAccept
  | .move => engineMove
  | .done => engineDone

/-- The states of an execution that never stops. -/
def IsRun (run : Nat → State) : Prop := ∀ k, Machine.step (run k) = .next (run (k + 1))

/-- Weak fairness (42_transfer_sync.md R142): an engine step that stays enabled is eventually taken. In other words, an
enabled engine step is, now or later, taken or no longer enabled. -/
def WeaklyFair (run : Nat → State) : Prop :=
  ∀ (a : EngineAction) (k : Nat), a.enabled (run k) = true →
    ∃ j, k ≤ j ∧ (Machine.step (run j) = .next (a.effect (nextTurn (run j)).2) ∨ a.enabled (run j) = false)

/-- What ENGINE_LIVE keeps true in every state, environment faults or not: the engine does not hang, and a transfer in
flight is pending or moving, its pointer inside the buffer. -/
def LiveEngine (s : State) : Prop :=
  s.cfg.engineLive = true ∧ s.engHung = false ∧ s.engPtr ≤ bufLen s.cfg ∧
  (s.busy = true → s.startPending = true ∨ s.engActive = true)

end Sys2Proof.Machine
end

