-- ==== Sys2Proof/Certificates/Slice0/Obligations.lean ====
section
/-! DEFINITION. The statements for the provers. Each says of which rule of spec/ it is the form. -/

open Sys2Proof Sys2Proof.Machine

/-! ## FrameCodec (40_codec.md) -/

/-- R100: `encode` as the sum of its shifted fields, and on a command word. -/
def Obligations.EncodeIsShiftedFields : Prop :=
  (∀ r g b bri : Byte, frameWord r g b bri =
    0xE0000000#32 ||| ((bri.extractLsb' 0 5).setWidth 32 <<< 24) ||| (b.setWidth 32 <<< 16) |||
      (g.setWidth 32 <<< 8) ||| r.setWidth 32) ∧
  (∀ w : Command, frameWord (w.extractLsb' 0 8) (w.extractLsb' 8 8) (w.extractLsb' 16 8) (w.extractLsb' 24 8) =
    w.extractLsb' 0 32 ||| 0xE0000000#32)

/-- R101: only `bri[4:0]` reaches the output; so BRI[7:5] is ignored by every command that takes a brightness (R74). -/
def Obligations.EncodeMasksBrightness : Prop :=
  ∀ r g b bri : Byte,
    (frameWord r g b bri).extractLsb' 24 5 = bri.extractLsb' 0 5 ∧
    frameWord r g b bri = frameWord r g b (bri &&& 0x1F#8) ∧
    ∀ (idx : Int) (s : State),
      exec (.encode r g b bri) s = exec (.encode r g b (bri &&& 0x1F#8)) s ∧
      exec (.setPixel idx r g b bri) s = exec (.setPixel idx r g b (bri &&& 0x1F#8)) s ∧
      exec (.setAll r g b bri) s = exec (.setAll r g b (bri &&& 0x1F#8)) s

/-- R102: each channel stands unchanged in its field. -/
def Obligations.EncodeKeepsChannels : Prop :=
  ∀ r g b bri : Byte,
    (frameWord r g b bri).extractLsb' 0 8 = r ∧ (frameWord r g b bri).extractLsb' 8 8 = g ∧
    (frameWord r g b bri).extractLsb' 16 8 = b

/-- R103, R87: the marker is 111, so the start sentinel is never encoded; the end sentinel is, by (255, 255, 255, 31). -/
def Obligations.EncodeMarksEveryWord : Prop :=
  (∀ r g b bri : Byte, (frameWord r g b bri).extractLsb' 29 3 = 0b111#3 ∧ frameWord r g b bri ≠ 0x00000000#32) ∧
  frameWord 255#8 255#8 255#8 31#8 = 0xFFFFFFFF#32

/-! ## The commands, each with the words that decode to it and its whole effect

`{ s with … }` names every field a command changes: all others stay. -/

/-- R105: ENCODE. -/
def Obligations.EncodeCommand : Prop :=
  (∀ w : Command, w &&& 0xFF00000000000000#64 = 0x1000000000000000#64 →
    decodeCommand w = .legal (.encode (w.extractLsb' 0 8) (w.extractLsb' 8 8) (w.extractLsb' 16 8) (w.extractLsb' 24 8))) ∧
  (∀ (w : Command) (s : State), w.extractLsb' 60 4 = 1#4 → w.extractLsb' 56 4 ≠ 0#4 →
    offer w s = .next { s with resps := s.resps ++ [⟨.illRsvd, 0#32⟩], cmds := s.cmds.tail }) ∧
  (∀ (r g b bri : Byte) (s : State), exec (.encode r g b bri) s =
    .next { s with resps := s.resps ++ [⟨.ok, frameWord r g b bri⟩], cmds := s.cmds.tail })

/-- R113, with R110, R111 and R24: SET_PIXEL. -/
def Obligations.SetPixelCommand : Prop :=
  (∀ w : Command, w &&& 0xFF00000000000000#64 = 0x2000000000000000#64 →
    decodeCommand w = .legal (.setPixel (w.extractLsb' 32 24).toInt (w.extractLsb' 0 8) (w.extractLsb' 8 8)
      (w.extractLsb' 16 8) (w.extractLsb' 24 8))) ∧
  (∀ (w : Command) (s : State), w.extractLsb' 60 4 = 2#4 → w.extractLsb' 56 4 ≠ 0#4 →
    offer w s = .next { s with resps := s.resps ++ [⟨.illRsvd, 0#32⟩], cmds := s.cmds.tail }) ∧
  (∀ (idx : Int) (r g b bri : Byte) (s : State), s.busy = true → exec (.setPixel idx r g b bri) s = .next s) ∧
  (∀ (c : Config) (idx : Int) (a : Nat),
    pixelAddress c idx = some a ↔ 0 ≤ idx ∧ idx < c.stripLen ∧ (a : Int) = 1 + idx) ∧
  (∀ (idx : Int) (r g b bri : Byte) (s : State), s.busy = false →
    ∃ t, exec (.setPixel idx r g b bri) s = .next t ∧
      t = { s with buf := t.buf, resps := s.resps ++ [⟨.ok, 0#32⟩], cmds := s.cmds.tail } ∧
      ∀ a, wordAt t a = if pixelAddress s.cfg idx = some a then some (frameWord r g b bri) else wordAt s a)

/-- R114, with R110: SET_ALL. -/
def Obligations.SetAllCommand : Prop :=
  (∀ w : Command, w &&& 0xFF00000000000000#64 = 0x3000000000000000#64 →
    decodeCommand w = .legal (.setAll (w.extractLsb' 0 8) (w.extractLsb' 8 8) (w.extractLsb' 16 8) (w.extractLsb' 24 8))) ∧
  (∀ (w : Command) (s : State), w.extractLsb' 60 4 = 3#4 → w.extractLsb' 56 4 ≠ 0#4 →
    offer w s = .next { s with resps := s.resps ++ [⟨.illRsvd, 0#32⟩], cmds := s.cmds.tail }) ∧
  (∀ (r g b bri : Byte) (s : State), s.busy = true → exec (.setAll r g b bri) s = .next s) ∧
  (∀ (r g b bri : Byte) (s : State), s.busy = false →
    ∃ t, exec (.setAll r g b bri) s = .next t ∧
      t = { s with buf := t.buf, resps := s.resps ++ [⟨.ok, 0#32⟩], cmds := s.cmds.tail } ∧
      ∀ a, wordAt t a = if 1 ≤ a ∧ a ≤ s.cfg.stripLen then some (frameWord r g b bri) else wordAt s a)

/-- R115, with R57 and R58: READ_WORD. The draw of an undefined word is a free value: the statement holds for every one. -/
def Obligations.ReadWordCommand : Prop :=
  (∀ w : Command, w &&& 0xFF00000000000000#64 = 0x7000000000000000#64 →
    decodeCommand w = .legal (.readWord (w.extractLsb' 32 24).toInt)) ∧
  (∀ (w : Command) (s : State), w.extractLsb' 60 4 = 7#4 → w.extractLsb' 56 4 ≠ 0#4 →
    offer w s = .next { s with resps := s.resps ++ [⟨.illRsvd, 0#32⟩], cmds := s.cmds.tail }) ∧
  (∀ (i : Nat) (v : Word) (s : State), i < bufLen s.cfg → wordAt s i = some v →
    exec (.readWord i) s = .next { s with resps := s.resps ++ [⟨.ok, v⟩], cmds := s.cmds.tail }) ∧
  (∀ (i : Nat) (s : State), i < bufLen s.cfg → isDefined s i = false →
    exec (.readWord i) s = .next { s with
      resps := s.resps ++ [⟨.ok, Config.draw s.draws⟩], cmds := s.cmds.tail, draws := s.draws + 1 }) ∧
  (∀ (idx : Int) (s : State), idx < 0 ∨ (bufLen s.cfg : Int) ≤ idx →
    exec (.readWord idx) s = .next { s with resps := s.resps ++ [⟨.ok, 0x00000000#32⟩], cmds := s.cmds.tail })

/-- R131: BEGIN_TRANSFER. -/
def Obligations.BeginTransferCommand : Prop :=
  (∀ w : Command, w &&& 0xFF00000000000000#64 = 0x4000000000000000#64 → decodeCommand w = .legal .beginTransfer) ∧
  (∀ (w : Command) (s : State), w.extractLsb' 60 4 = 4#4 → w.extractLsb' 56 4 ≠ 0#4 →
    offer w s = .next { s with resps := s.resps ++ [⟨.illRsvd, 0#32⟩], cmds := s.cmds.tail }) ∧
  (∀ s : State, s.busy = true → exec .beginTransfer s = .next s) ∧
  (∀ s : State, s.busy = false → exec .beginTransfer s = .next { s with
    busy := true, startPending := true, resps := s.resps ++ [⟨.ok, 0#32⟩], cmds := s.cmds.tail })

/-- R132: WAIT. -/
def Obligations.WaitCommand : Prop :=
  (∀ w : Command, w &&& 0xFF00000000000000#64 = 0x5000000000000000#64 → decodeCommand w = .legal .wait) ∧
  (∀ (w : Command) (s : State), w.extractLsb' 60 4 = 5#4 → w.extractLsb' 56 4 ≠ 0#4 →
    offer w s = .next { s with resps := s.resps ++ [⟨.illRsvd, 0#32⟩], cmds := s.cmds.tail }) ∧
  (∀ s : State, s.busy = true → exec .wait s = .next s) ∧
  (∀ s : State, s.busy = false →
    exec .wait s = .next { s with resps := s.resps ++ [⟨.ok, 0#32⟩], cmds := s.cmds.tail })

/-- R133, with R27 and R82: STATUS, and its answer right after a WAIT that was performed. -/
def Obligations.StatusCommand : Prop :=
  (∀ w : Command, w &&& 0xFF00000000000000#64 = 0x6000000000000000#64 → decodeCommand w = .legal .status) ∧
  (∀ (w : Command) (s : State), w.extractLsb' 60 4 = 6#4 → w.extractLsb' 56 4 ≠ 0#4 →
    offer w s = .next { s with resps := s.resps ++ [⟨.illRsvd, 0#32⟩], cmds := s.cmds.tail }) ∧
  (∀ s : State, exec .status s = .next { s with
    resps := s.resps ++ [⟨.ok, if s.busy then 0x00000001#32 else 0x00000000#32⟩], cmds := s.cmds.tail }) ∧
  (∀ s t u : State, s.busy = false → exec .wait s = .next t → exec .status t = .next u →
    u.resps = t.resps ++ [⟨.ok, 0x00000000#32⟩])

/-- R134: NOP. -/
def Obligations.NopCommand : Prop :=
  (∀ w : Command, w &&& 0xFF00000000000000#64 = 0x0000000000000000#64 → decodeCommand w = .legal .nop) ∧
  (∀ (w : Command) (s : State), w.extractLsb' 60 4 = 0#4 → w.extractLsb' 56 4 ≠ 0#4 →
    offer w s = .next { s with resps := s.resps ++ [⟨.illRsvd, 0#32⟩], cmds := s.cmds.tail }) ∧
  (∀ s : State, exec .nop s = .next { s with resps := s.resps ++ [⟨.ok, 0#32⟩], cmds := s.cmds.tail })

/-! ## The write guards (41_framebuffer.md) -/

/-- R111, R118: a SET_PIXEL outside `[0, N)` leaves every word and every mark, and answers OK. -/
def Obligations.OutOfRangePixelIsNoOp : Prop :=
  ∀ (idx : Int) (r g b bri : Byte) (s : State), s.busy = false → idx < 0 ∨ (s.cfg.stripLen : Int) ≤ idx →
    exec (.setPixel idx r g b bri) s = .next { s with resps := s.resps ++ [⟨.ok, 0#32⟩], cmds := s.cmds.tail }

/-- R112: no command writes the start word or an end word; a pixel index names a word of `1 .. N`. -/
def Obligations.NoCommandWritesSentinels : Prop :=
  (∀ (i : Instr) (s t : State), exec i s = .next t → SameSentinels s t) ∧
  (∀ (c : Config) (idx : Int) (a : Nat), pixelAddress c idx = some a → 1 ≤ a ∧ a ≤ c.stripLen)

/-- R116: the only writers of the buffer are reset, SET_PIXEL and SET_ALL. -/
def Obligations.OnlyPixelCommandsAndResetWriteBuffer : Prop :=
  ∀ s t : State, step s = .next t → t.buf ≠ s.buf →
    (nextTurn s).1 = .reset ∨ (nextTurn s).1 = .resetBlockOnly ∨
    ((nextTurn s).1 = .host ∧ ∃ w ws, s.cmds = w :: ws ∧
      ((∃ idx r g b bri, decodeCommand w = .legal (.setPixel idx r g b bri)) ∨
       (∃ r g b bri, decodeCommand w = .legal (.setAll r g b bri))))

/-- R110, R196: while BUSY = 1 no step but a reset changes a word of the buffer or a defined mark. -/
def Obligations.BufferIsFrozenWhileBusy : Prop :=
  ∀ s t : State, s.busy = true → step s = .next t →
    (nextTurn s).1 ≠ .reset → (nextTurn s).1 ≠ .resetBlockOnly → t.buf = s.buf ∧ t.cfg = s.cfg

/-- R117: in every reachable state the start word is 0 and every end word is all ones. -/
def Obligations.ReachableSentinelsIntact : Prop :=
  ∀ s : State, Reachable s → RegionsIntact s

/-- R117, as an invariant of every state: a step keeps the sentinel regions. -/
def Obligations.StepKeepsSentinels : Prop :=
  ∀ s t : State, RegionsIntact s → step s = .next t → RegionsIntact t

/-- R119: every word written since reset has the marker 111, and stands in the pixel region; a step keeps this. -/
def Obligations.StepKeepsWrittenWordsMarked : Prop :=
  ∀ s t : State, WrittenWordsMarked s ∧ OnlyPixelsWritten s → step s = .next t →
    WrittenWordsMarked t ∧ OnlyPixelsWritten t

/-- The canonical form of the word list (log 4) is kept by every step, under any configuration. -/
def Obligations.StepKeepsMemoryCanonical : Prop :=
  ∀ s t : State, s.buf.wf s.cfg = true → step s = .next t → t.buf.wf t.cfg = true

/-- R58: in a canonical memory, writing a value twice is writing it once, and it reads back. -/
def Obligations.WritesAreIdempotent : Prop :=
  ∀ (s : State) (i : Nat) (v : Word), s.buf.wf s.cfg = true →
    bufWrite (bufWrite s i v) i v = bufWrite s i v ∧ wordAt (bufWrite s i v) i = some v ∧
    ∀ j, j ≠ i → wordAt (bufWrite s i v) j = wordAt s j

/-! ## The TransferSynchronizer and the engine (42_transfer_sync.md) -/

/-- R26: BUSY rises only by BEGIN_TRANSFER, and falls only by a reset or by a completion signal. -/
def Obligations.OnlyThreeEventsWriteBusy : Prop :=
  ∀ s t : State, step s = .next t →
    (s.busy = false → t.busy = true →
      (nextTurn s).1 = .host ∧ ∃ w ws, s.cmds = w :: ws ∧ decodeCommand w = .legal .beginTransfer) ∧
    (s.busy = true → t.busy = false →
      (nextTurn s).1 = .reset ∨ (nextTurn s).1 = .resetBlockOnly ∨ (nextTurn s).1 = .strayDone ∨
      ((nextTurn s).1 = .engine ∧ s.engActive = true ∧ s.engPtr = bufLen s.cfg))

/-- R136: ACCEPT. -/
def Obligations.EngineAcceptStep : Prop :=
  ∀ s u : State, nextTurn s = (.engine, u) → s.engHung = false → s.startPending = true → s.engActive = false →
    step s = .next { u with startPending := false, engActive := true, engPtr := 0, wire := s.wire ++ [[]] }

/-- R137, with R57: MOVE, into the last frame. The draw for an undefined word is a free value. -/
def Obligations.EngineMoveStep : Prop :=
  ∀ (s u : State) (fs : List (List Word)) (f : List Word), nextTurn s = (.engine, u) → s.engHung = false →
    s.engActive = true → s.engPtr < bufLen s.cfg → s.wire = fs ++ [f] →
    (∀ v, wordAt s s.engPtr = some v →
      step s = .next { u with engPtr := s.engPtr + 1, wire := fs ++ [f ++ [v]] }) ∧
    (isDefined s s.engPtr = false →
      step s = .next { u with
        engPtr := s.engPtr + 1, wire := fs ++ [f ++ [Config.draw s.draws]], draws := s.draws + 1 })

/-- R138: DONE. -/
def Obligations.EngineDoneStep : Prop :=
  ∀ s u : State, nextTurn s = (.engine, u) → s.engHung = false → s.engActive = true → s.engPtr = bufLen s.cfg →
    step s = .next { u with engActive := false, busy := false }

/-- R142: HANG is a step exactly where ENGINE_LIVE is false and a transfer is in flight; elsewhere its turn changes nothing. -/
def Obligations.EngineHangStep : Prop :=
  ∀ s u : State, nextTurn s = (.hang, u) → s.engHung = false →
    (s.cfg.engineLive = false → s.startPending = true ∨ s.engActive = true →
      step s = .next { u with engHung := true }) ∧
    (s.cfg.engineLive = true ∨ (s.startPending = false ∧ s.engActive = false) → stuck u = false → step s = .next u)

/-- R142: after HANG, BUSY stays 1 and the engine takes no step, whatever the turns, until a reset or a signal from
outside the contract. -/
def Obligations.HungEngineKeepsBusy : Prop :=
  ∀ s t : State, s.engHung = true → s.busy = true → step s = .next t →
    (nextTurn s).1 ≠ .reset → (nextTurn s).1 ≠ .resetBlockOnly → (nextTurn s).1 ≠ .strayDone →
    t.engHung = true ∧ t.busy = true ∧ t.wire = s.wire ∧ t.engPtr = s.engPtr

/-- R139: an `xfer_done` while BUSY = 0 is ignored; R181 has the violation recorded, which nothing clears. -/
def Obligations.SpuriousDoneIsIgnored : Prop :=
  ∀ s u : State, nextTurn s = (.strayDone, u) →
    (s.busy = false → step s = .next { u with violations := s.violations ++ [.doneWhileIdle] }) ∧
    (s.busy = true → step s = .next { u with busy := false, violations := s.violations ++ [.strayDone] })

/-- R60: a DMA read at `dma_raddr >= L` is a draw; inside the buffer it is BufRead (R57). R207: in the cycle-level machine
(log 9) `dma_rdata` is that answer `LAT_DMA_READ` cycles after `dma_raddr`, and while BUSY = 1 no edge but a reset changes the
buffer, so the latency has no effect on a defined word. -/
def Obligations.DmaReadOutOfRangeIsDraw : Prop :=
  (latencyDmaRead = 0 ∨ latencyDmaRead = 1) ∧
  (∀ (c : CycleState) (i : CycleIn),
    (∀ j, (if latencyDmaRead = 0 then dmaRdataNow i c else dmaRdataNow j (cycle c i)) = portRead i c) ∧
    (∀ v, i.dmaRaddr.toNat < bufLen c.block.cfg → wordAt c.block i.dmaRaddr.toNat = some v → portRead i c = v) ∧
    (bufLen c.block.cfg ≤ i.dmaRaddr.toNat ∨ isDefined c.block i.dmaRaddr.toNat = false →
      portRead i c = Config.dmaDraw c.dmaReads) ∧
    (cycle c i).dmaReads = c.dmaReads + 1 ∧
    (c.block.busy = true → i.rst = false → (cycle c i).block.buf = c.block.buf ∧ (cycle c i).block.cfg = c.block.cfg)) ∧
  ∀ (s : State) (a : BitVec 23),
    (bufLen s.cfg ≤ a.toNat → dmaRdata s a = (Config.draw s.draws, { s with draws := s.draws + 1 })) ∧
    (∀ v, a.toNat < bufLen s.cfg → wordAt s a.toNat = some v → dmaRdata s a = (v, s)) ∧
    (a.toNat < bufLen s.cfg → isDefined s a.toNat = false →
      dmaRdata s a = (Config.draw s.draws, { s with draws := s.draws + 1 }))

/-- R140: no command stops, restarts or shortens a transfer in flight. -/
def Obligations.NoCommandCancelsTransfer : Prop :=
  ∀ (i : Instr) (s t : State), s.busy = true → exec i s = .next t →
    t.busy = true ∧ t.startPending = s.startPending ∧ t.engActive = s.engActive ∧ t.engPtr = s.engPtr ∧
    t.engHung = s.engHung ∧ t.wire = s.wire

/-- R143 and the frame invariants of R144: what holds as long as no environment fault is recorded is kept by every step. -/
def Obligations.StepKeepsContract : Prop :=
  ∀ s t : State, RegionsIntact s → Contract s → step s = .next t → Contract t

/-- R143: the serialization invariant in every reachable state of a run without an environment fault. -/
def Obligations.ReachableSerialized : Prop :=
  ∀ s : State, Reachable s → s.violations = [] →
    s.busy = (s.startPending || s.engActive) ∧ ¬(s.startPending = true ∧ s.engActive = true)

/-- R144, its first sentence with the sentinels: every frame whose transfer has reached DONE has exactly `L` words, the
start sentinel first and the end sentinel at every end word. -/
def Obligations.ReachableFramesComplete : Prop :=
  ∀ s : State, Reachable s → s.violations = [] → FramesComplete s

/-- R62, R144: the frame of a transfer is the buffer as it stood when the transfer was started, whatever comes between. `s`
is the state right after BEGIN_TRANSFER, `t` the last state before DONE, `u` the state after it. -/
def Obligations.FrameIsBufferAtBegin : Prop :=
  ∀ s t u : State, s.startPending = true → s.engActive = false → Draining s t →
    step t = .next u → (nextTurn t).1 = .engine → u.busy = false →
    ∃ f, u.wire = s.wire ++ [f] ∧ f.length = bufLen s.cfg ∧ FrameAgrees s f ∧ u.buf = s.buf

/-- R142: with `L + 2` turns of an engine that does not hang, a started transfer completes: one ACCEPT, `L` MOVEs, one DONE;
the frame agrees with the buffer, and nothing but the engine, BUSY, the wire log and the draws has changed. -/
def Obligations.TransferCompletesInTurns : Prop :=
  ∀ (s : State) (ts : List Turn), s.busy = true → s.startPending = true → s.engActive = false → s.engHung = false →
    s.turns = List.replicate (bufLen s.cfg + 2) Turn.engine ++ ts →
    ∃ f n, core.run (bufLen s.cfg + 2) s = .next { s with
        busy := false, startPending := false, engActive := false, engPtr := bufLen s.cfg,
        wire := s.wire ++ [f], turns := ts, draws := n } ∧
      f.length = bufLen s.cfg ∧ FrameAgrees s f

/-- R142: under ENGINE_LIVE, a transfer in flight completes in every interleaving in which the engine has `L + 2` turns, whatever
the host issues and is answered in between: some state on the way has BUSY = 0. -/
def Obligations.FairTurnsCompleteTransfer : Prop :=
  ∀ (s : State) (ts us : List Turn), RegionsIntact s → Contract s → s.violations = [] → s.cfg.engineLive = true →
    s.turns = ts ++ us → (∀ t ∈ ts, (∃ w, t = .issue w) ∨ t = .host ∨ t = .engine ∨ t = .hang) →
    bufLen s.cfg + 2 ≤ ts.count .engine →
    ∃ k t, k ≤ ts.length ∧ core.run k s = .next t ∧ t.busy = false

/-- R132, R63: a WAIT that is answered finds no transfer in flight and every frame of the wire log complete. -/
def Obligations.WaitIsCompletionBarrier : Prop :=
  ∀ s t : State, Contract s → s.violations = [] → exec .wait s = .next t → t.resps ≠ s.resps →
    s.busy = false ∧ s.startPending = false ∧ s.engActive = false ∧ ∀ f ∈ s.wire, f.length = bufLen s.cfg

/-- R148: with no environment fault and no hung engine, no engine step is enabled exactly where BUSY = 0, and every frame
in the wire log has then reached DONE. -/
def Obligations.EndOfRunIsIdle : Prop :=
  ∀ s : State, Contract s → s.violations = [] → s.engHung = false →
    (engineEnabled s = false ↔ s.busy = false) ∧ (engineEnabled s = false → completedFrames s = s.wire)

/-- R142, R148 in the model's reading (log 10, DEDUCED): R148 calls every state with BUSY = 1 and eng_hung = 1 stuck, as one
with no enabled step; the model leaves out the state whose head can still be answered, because the host then has an enabled
step (R34, R135). With no environment fault, a state is stuck exactly where BUSY = 1, the engine hangs, and no command that
need not wait is at the head. -/
def Obligations.StuckOnlyWhenHung : Prop :=
  ∀ s : State, Contract s → s.violations = [] →
    (stuck s = true ↔ s.busy = true ∧ s.engHung = true ∧ ∀ w ws, s.cmds = w :: ws → wordNeedsIdle w = true)

/-- The one stop of the machine (R148, `stuck` in the reading of log 10): a host or engine turn faults exactly in a stuck state, no other turn stops, and no
step is refused. -/
def Obligations.StepStopsOnlyWhenStuck : Prop :=
  ∀ s : State,
    (step s = .fault .stuck ↔
      stuck (nextTurn s).2 = true ∧
        ((nextTurn s).1 = .host ∨ (nextTurn s).1 = .engine ∨ (nextTurn s).1 = .hang)) ∧
    ∀ r, step s ≠ .refused r

/-! ## The host's side -/

/-- R135, R80: a host turn either changes nothing but the turn taken, or takes the head of the queue and gives it exactly one
response, behind the earlier ones. -/
def Obligations.OneResponsePerCommandInOrder : Prop :=
  ∀ s t : State, (nextTurn s).1 = .host → step s = .next t →
    t = (nextTurn s).2 ∨ (∃ w ws r, s.cmds = w :: ws ∧ t.cmds = ws ∧ t.resps = s.resps ++ [r])

/-- R171, R172: an illegal word at the head is answered at once, BUSY or not, ILL_OP (code 01) before ILL_RSVD (code 10), with
data 0 and no other change. -/
def Obligations.IllegalWordsAnsweredAtOnce : Prop :=
  (rspCodeBits .illOp = 0b01#2 ∧ rspCodeBits .illRsvd = 0b10#2) ∧
  ∀ (s u : State) (w : Command) (ws : List Command), nextTurn s = (.host, u) → s.cmds = w :: ws →
    (8 ≤ (w.extractLsb' 60 4).toNat →
      step s = .next { u with resps := s.resps ++ [⟨.illOp, 0#32⟩], cmds := ws }) ∧
    ((w.extractLsb' 60 4).toNat ≤ 7 → w.extractLsb' 56 4 ≠ 0#4 →
      step s = .next { u with resps := s.resps ++ [⟨.illRsvd, 0#32⟩], cmds := ws })

/-- The head of the queue is what a host turn runs: `step` is `exec` of the decoded instruction at the state with the turn
taken, unless that state is stuck. With an empty queue it changes nothing but the turn taken. -/
def Obligations.StepRunsHeadCommand : Prop :=
  (∀ (s u : State) (w : Command) (ws : List Command) (i : Instr), nextTurn s = (.host, u) → s.cmds = w :: ws →
    decodeCommand w = .legal i → stuck u = false → step s = exec i u) ∧
  (∀ s u : State, nextTurn s = (.host, u) → s.cmds = [] → stuck u = false → step s = .next u) ∧
  (∀ (s : State) (t : Turn) (ts : List Turn), s.turns = t :: ts → nextTurn s = (t, { s with turns := ts })) ∧
  (∀ s : State, s.turns = [] → nextTurn s = (openTurn s.cfg s.tick, { s with tick := s.tick + 1 })) ∧
  (∀ (c : Config) (n : Nat), c.engineLive = false → openTurn c n = Config.freeTurn n)

/-- A placed command word is the next step's instruction, in any state where BUSY = 0. -/
def Obligations.PlacedWordIsRun : Prop :=
  ∀ (s : State) (w : Nat) (i : Instr), s.busy = false → decodeTableWord 64 w = some i →
    step (s.withFetchWord 64 w) = exec i { s with cmds := tableWord 64 w :: s.cmds.tail }

/-- 10_state.md introduction, R20: no step changes the configuration, so the buffer's size never changes. -/
def Obligations.ConfigurationNeverChanges : Prop :=
  ∀ s t : State, step s = .next t → t.cfg = s.cfg ∧ bufLen t.cfg = bufLen s.cfg

/-- R181: environment faults are never cleared, a reset included. -/
def Obligations.ViolationsAreSticky : Prop :=
  ∀ s t : State, step s = .next t → ∃ vs, t.violations = s.violations ++ vs

/-! ## Reset (70_reset_and_hazards.md) -/

/-- R36: the reset values, under any configuration. -/
def Obligations.ResetValues : Prop :=
  ∀ c : Config, c.wf = true →
    wordAt (State.resetWith c) 0 = some 0x00000000#32 ∧
    (∀ i, 1 ≤ i → i ≤ c.stripLen → isDefined (State.resetWith c) i = false) ∧
    (∀ i, c.stripLen < i → i < bufLen c → wordAt (State.resetWith c) i = some 0xFFFFFFFF#32) ∧
    (State.resetWith c).busy = false ∧ (State.resetWith c).startPending = false ∧
    statusWord (State.resetWith c) = 0x00000000#32 ∧ busyOut (State.resetWith c) = false ∧
    (∀ acc : Bool, xferStartNext true acc = false) ∧
    (State.resetWith c).cmds = [] ∧ (State.resetWith c).resps = [] ∧ (State.resetWith c).wire = [] ∧
    (State.resetWith c).engActive = false ∧ (State.resetWith c).engPtr = 0 ∧ (State.resetWith c).engHung = false

/-- R190, R191, R192: a reset in any state leaves the reset values of block and engine, every pixel word undefined. That the
responses given stay given is the model's choice (log 7), as are the counters that stay (logs 2 and 3). -/
def Obligations.ResetStepInitializes : Prop :=
  ∀ s u : State, nextTurn s = (.reset, u) →
    step s = .next { State.resetWith s.cfg with
      resps := s.resps, violations := s.violations, turns := u.turns, tick := u.tick, draws := s.draws }

/-- The invariants hold at reset, under any configuration. -/
def Obligations.InvariantsHoldAtReset : Prop :=
  ∀ c : Config, RegionsIntact (State.resetWith c) ∧ WrittenWordsMarked (State.resetWith c) ∧
    OnlyPixelsWritten (State.resetWith c) ∧ Contract (State.resetWith c) ∧
    (State.resetWith c).buf.wf c = true

/-! ## Encodings (30_encoding.md) -/

/-- Decoding the encoding of a well-formed instruction gives it back, every operand at every value. -/
def Obligations.DecodeEncodeRoundTrip : Prop :=
  ∀ i : Instr, i.wf = true → decodeCommand (encodeCommand i) = .legal i

/-- The other direction: a legal word decodes to a well-formed instruction, whose encoding keeps OP, RSVD and every field
the instruction uses. -/
def Obligations.EncodeDecodeKeepsUsedFields : Prop :=
  ∀ (w : Command) (i : Instr), decodeCommand w = .legal i →
    i.wf = true ∧ (encodeCommand i).extractLsb' 56 8 = w.extractLsb' 56 8 ∧
    (∀ idx r g b bri, i = .setPixel idx r g b bri → encodeCommand i = w) ∧
    (∀ idx, i = .readWord idx → (encodeCommand i).extractLsb' 32 24 = w.extractLsb' 32 24) ∧
    (∀ r g b bri, i = .encode r g b bri ∨ i = .setAll r g b bri →
      (encodeCommand i).extractLsb' 0 32 = w.extractLsb' 0 32)

/-- R79: decode in the order of its pseudocode, its fields as numbers: OP first, then RSVD, then the opcode map R77. -/
def Obligations.DecodeFollowsOpcodeMap : Prop :=
  ∀ w : Command,
    decodeCommand w =
      (let op := w.toNat / 2 ^ 60
       let rsvd := w.toNat / 2 ^ 56 % 16
       let idx := if w.toNat / 2 ^ 32 % 2 ^ 24 < 2 ^ 23 then ((w.toNat / 2 ^ 32 % 2 ^ 24 : Nat) : Int)
         else ((w.toNat / 2 ^ 32 % 2 ^ 24 : Nat) : Int) - 2 ^ 24
       let bri := BitVec.ofNat 8 (w.toNat / 2 ^ 24)
       let b := BitVec.ofNat 8 (w.toNat / 2 ^ 16)
       let g := BitVec.ofNat 8 (w.toNat / 2 ^ 8)
       let r := BitVec.ofNat 8 w.toNat
       if 8 ≤ op then .illOp
       else if rsvd ≠ 0 then .illRsvd
       else if op = 0 then .legal .nop
       else if op = 1 then .legal (.encode r g b bri)
       else if op = 2 then .legal (.setPixel idx r g b bri)
       else if op = 3 then .legal (.setAll r g b bri)
       else if op = 4 then .legal .beginTransfer
       else if op = 5 then .legal .wait
       else if op = 6 then .legal .status
       else .legal (.readWord idx))

/-- R76: a field a command does not use has no effect. -/
def Obligations.UnusedFieldsAreIgnored : Prop :=
  ∀ (v w : Command) (s : State), v.extractLsb' 56 8 = w.extractLsb' 56 8 →
    ((v.extractLsb' 60 4 = 0#4 ∨ v.extractLsb' 60 4 = 4#4 ∨ v.extractLsb' 60 4 = 5#4 ∨ v.extractLsb' 60 4 = 6#4) →
      offer v s = offer w s) ∧
    ((v.extractLsb' 60 4 = 1#4 ∨ v.extractLsb' 60 4 = 3#4) → v.extractLsb' 0 32 = w.extractLsb' 0 32 →
      offer v s = offer w s) ∧
    (v.extractLsb' 60 4 = 7#4 → v.extractLsb' 32 24 = w.extractLsb' 32 24 → offer v s = offer w s)

/-- One command word of each family, written out from the encoding (95_test_vectors.md sections 2.1 to 2.4). -/
def Obligations.WrittenOutWordsDecode : Prop :=
  decodeCommand 0x100000000A80FF00#64 = .legal (.encode 0#8 255#8 128#8 10#8) ∧
  decodeCommand 0x2000008F0A8002FD#64 = .legal (.setPixel 143 253#8 2#8 128#8 10#8) ∧
  decodeCommand 0x20FFFFFF1FFFFFFF#64 = .legal (.setPixel (-1) 255#8 255#8 255#8 31#8) ∧
  decodeCommand 0x300000001F0000FF#64 = .legal (.setAll 255#8 0#8 0#8 31#8) ∧
  decodeCommand 0x4000000000000000#64 = .legal .beginTransfer ∧
  decodeCommand 0x7000009300000000#64 = .legal (.readWord 147) ∧
  decodeCommand 0x9F00000000000000#64 = .illOp ∧
  decodeCommand 0x7F00000000000000#64 = .illRsvd

/-- R89: the assembler's packing: channels and brightness by their low 8 bits, an index outside the range of INDEX as -1,
which names no pixel; and the pseudo-commands. -/
def Obligations.AssemblerPacksOperands : Prop :=
  (∀ idx r g b bri : Int, ∃ w, assemble (.setPix idx r g b bri) = [w] ∧
    decodeCommand w = .legal (.setPixel (if -8388608 ≤ idx ∧ idx < 8388608 then idx else -1)
      (BitVec.ofInt 8 r) (BitVec.ofInt 8 g) (BitVec.ofInt 8 b) (BitVec.ofInt 8 bri))) ∧
  (∀ r g b bri : Int, ∃ w v, assemble (.setAll r g b bri) = [w] ∧ assemble (.encode r g b bri) = [v] ∧
    decodeCommand w = .legal (.setAll (BitVec.ofInt 8 r) (BitVec.ofInt 8 g) (BitVec.ofInt 8 b) (BitVec.ofInt 8 bri)) ∧
    decodeCommand v = .legal (.encode (BitVec.ofInt 8 r) (BitVec.ofInt 8 g) (BitVec.ofInt 8 b) (BitVec.ofInt 8 bri))) ∧
  (∀ idx : Int, ∃ w, assemble (.rdWord idx) = [w] ∧
    decodeCommand w = .legal (.readWord (if -8388608 ≤ idx ∧ idx < 8388608 then idx else -1))) ∧
  assemble .clear = assemble (.setAll 0 0 0 0) ∧ assemble .flush = assemble .beginXfer ∧
  assemble .showFrame = assemble .beginXfer ++ assemble .wait ∧ ∀ w, assemble (.cmd w) = [w]

/-! ## Parameters and ports (00_scope.md, 10_state.md, 70_reset_and_hazards.md) -/

/-- R8, R9: `E` is the least number of end words with `32 * E >= N / 2`, and `L = 1 + N + E` fits the 23 bits of `xfer_len`
(R33). -/
def Obligations.BufferLengthFitsPort : Prop :=
  ∀ c : Config, c.wf = true →
    c.stripLen ≤ 64 * endLen c ∧ (∀ e, c.stripLen ≤ 64 * e → endLen c ≤ e) ∧
    bufLen c = 1 + c.stripLen + endLen c ∧ bufLen c ≤ 4259841 ∧ (xferLen c).toNat = bufLen c

/-- R54, R209: a frame of `L` words is `32 * L` bits on the line; bit `32 * i + k` is bit `31 - k` of word `i`. -/
def Obligations.FrameIsSentMsbFirst : Prop :=
  ∀ (c : Config) (f : List Word), f.length = bufLen c →
    (frameBits f).length = frameBitClocks c ∧
    ∀ (i k : Nat) (w : Word), f[i]? = some w → k < 32 → (frameBits f)[32 * i + k]? = some (w.getLsbD (31 - k))

/-- R205: `needsIdle(cmd)` on the bits of the word names the words that hold while BUSY = 1, and an offered command is
performed in the cycle in which `cmd_ready` is 1. Then the handshake of the cycle-level machine: nothing is accepted while a
response is pending; an accepted command is performed in that cycle (the model's choice, log 9) and its response pends; the
response is first offered `LAT_<op>` cycles after, and held until the host takes it or a reset drops it (R190). -/
def Obligations.ReadyMeansPerformed : Prop :=
  ∀ (w : Command) (s : State), needsIdleBits w = wordNeedsIdle w ∧
    (cmdReady false false w s = true → ∃ t r, offer w s = .next t ∧ t.resps = s.resps ++ [r]) ∧
    (cmdReady false false w s = false → offer w s = .next s) ∧
    ∀ (c : CycleState) (i : CycleIn),
      (rspPending c = true → readyNow i c = false ∧ acceptsNow i c = false) ∧
      (acceptsNow i c = true → ∃ t r, offer i.cmdWord c.block = .next t ∧ t.resps = c.block.resps ++ [r] ∧
        (cycle c i).pending = some ⟨r, latency (opField i.cmdWord) - 1⟩ ∧
        (cycle c i).block = { t with resps := c.block.resps, cmds := c.block.cmds, busy := (cycle c i).block.busy } ∧
        ∀ is : List CycleIn, (∀ j ∈ is, j.rst = false) → is.length + 1 ≤ latency (opField i.cmdWord) →
          (rspValid (cycles (cycle c i) is) = true ↔ is.length + 1 = latency (opField i.cmdWord))) ∧
      (∀ p, c.pending = some p → i.rst = false → takenNow i c = false →
        (cycle c i).pending = some ⟨p.rsp, p.wait - 1⟩ ∧ (cycle c i).block.resps = c.block.resps) ∧
      (∀ p, c.pending = some p → i.rst = false → takenNow i c = true →
        (cycle c i).pending = none ∧ (cycle c i).block.resps = c.block.resps ++ [p.rsp]) ∧
      (i.rst = true → (cycle c i).pending = none ∧ acceptsNow i c = false)

/-- R206, R204: the register equation of BUSY is what a command, a completion and a reset do to it; a BEGIN_TRANSFER offered
while BUSY = 1 is not accepted, whatever `xfer_done` is in that cycle. -/
def Obligations.BusyRegisterEquation : Prop :=
  (∀ (w : Command) (s t : State), offer w s = .next t →
    t.busy = busyNext false (beginAcc false false true w s) false s.busy) ∧
  (∀ s : State, (takeDone s).busy = busyNext false false true s.busy) ∧
  (∀ (s : State) (acc done : Bool), (resetBlock s).busy = busyNext true acc done s.busy) ∧
  (∀ (w : Command) (s : State) (rst pending valid : Bool), s.busy = true →
    beginAcc rst pending valid w s = false) ∧
  (∀ (c : CycleState) (i : CycleIn),
    (cycle c i).block.busy = busyNext i.rst (beginsNow i c) i.xferDone c.block.busy ∧
    (cycle c i).xferStart = xferStartNext i.rst (beginsNow i c))

/-! ## Liveness of the engine (42_transfer_sync.md R142) -/

/-- R142 with ENGINE_LIVE true, on the machine's own steps and with no premise on the turns: every execution that does not
stop is weakly fair; from a state that meets the contract there is such an execution; and from such a state with BUSY = 1
a step is reached that clears BUSY. Where the transfer was still to be accepted, the engine's turn clears BUSY and no
environment fault is recorded, its frame holds exactly `L` moved words, the buffer's. The form of the turns is the model's
(logs 2 and 5). -/
def Obligations.LiveEngineIsWeaklyFair : Prop :=
  (∀ run : Nat → State, IsRun run → (run 0).cfg.engineLive = true → WeaklyFair run) ∧
  (∀ s : State, Contract s → s.violations = [] → s.cfg.engineLive = true →
    ∃ run : Nat → State, run 0 = s ∧ IsRun run) ∧
  (∀ s : State, Contract s → s.violations = [] → s.cfg.engineLive = true → s.busy = true →
    ∃ k t u, core.run k s = .next t ∧ t.busy = true ∧ step t = .next u ∧ u.busy = false ∧
      (s.startPending = true → (nextTurn t).1 = .engine → u.violations = [] →
        ∃ f, u.wire = s.wire ++ [f] ∧ f.length = bufLen s.cfg ∧ FrameAgrees s f))
end

