-- ==== Sys2Proof/Laws/Memory.lean ====
section
/-! SUPPORT. The laws of the word list: read after write, other words untouched, and the canonical form kept. -/

namespace Sys2Proof.Machine

theorem lookup_insert_same (m : Memory) (i : Nat) (w : Word) : (m.insert i w).lookup i = some w := by
  induction m with
  | nil => simp [Memory.insert, Memory.lookup]
  | cons p m ih =>
    obtain ⟨j, v⟩ := p
    simp only [Memory.insert]
    split
    · simp [Memory.lookup]
    · split
      · simp [Memory.lookup]
      · rename_i h1 h2
        have : j ≠ i := fun h => h2 h.symm
        simp [Memory.lookup, this, ih]

theorem lookup_insert_other (m : Memory) {i j : Nat} (w : Word) (h : i ≠ j) :
    (m.insert i w).lookup j = m.lookup j := by
  induction m with
  | nil => simp [Memory.insert, Memory.lookup, h]
  | cons p m ih =>
    obtain ⟨k, v⟩ := p
    simp only [Memory.insert]
    split
    · simp [Memory.lookup, h]
    · split
      · rename_i h1 h2
        subst h2
        simp [Memory.lookup, h]
      · simp only [Memory.lookup, ih]

theorem lookup_erase_other (m : Memory) {i j : Nat} (h : i ≠ j) : (m.erase i).lookup j = m.lookup j := by
  induction m with
  | nil => rfl
  | cons p m ih =>
    obtain ⟨k, v⟩ := p
    simp only [Memory.erase]
    split
    · rename_i hk
      have : k ≠ j := fun h' => h (hk ▸ h')
      simp [Memory.lookup, this]
    · simp only [Memory.lookup, ih]

/-- Every index of the list is above `k`. -/
def Memory.above (k : Nat) (m : Memory) : Prop := ∀ p ∈ m, k < p.1

theorem rising_cons (i : Nat) (w : Word) (m : Memory) :
    Memory.rising ((i, w) :: m) = true ↔ m.above i ∧ m.rising = true := by
  induction m generalizing i w with
  | nil => simp [Memory.rising, Memory.above]
  | cons p m ih =>
    obtain ⟨j, v⟩ := p
    simp only [Memory.rising, Bool.and_eq_true, decide_eq_true_eq, ih]
    constructor
    · rintro ⟨hij, ha, hr⟩
      refine ⟨?_, ha, hr⟩
      intro q hq
      rcases List.mem_cons.1 hq with rfl | hq
      · exact hij
      · exact Nat.lt_trans hij (ha q hq)
    · rintro ⟨ha, hj, hr⟩
      exact ⟨ha (j, v) (by simp), hj, hr⟩

theorem lookup_none_of_above {m : Memory} {k i : Nat} (h : m.above k) (hi : i ≤ k) : m.lookup i = none := by
  induction m with
  | nil => rfl
  | cons p m ih =>
    obtain ⟨j, v⟩ := p
    have hj : k < j := h (j, v) (by simp)
    have : j ≠ i := by omega
    simp only [Memory.lookup, this, if_false]
    exact ih fun q hq => h q (by simp [hq])

theorem lookup_erase_same {m : Memory} (i : Nat) (h : m.rising = true) : (m.erase i).lookup i = none := by
  induction m with
  | nil => rfl
  | cons p m ih =>
    obtain ⟨j, v⟩ := p
    obtain ⟨ha, hr⟩ := (rising_cons j v m).1 h
    simp only [Memory.erase]
    split
    · rename_i hj
      exact lookup_none_of_above ha (by omega)
    · rename_i hj
      simp only [Memory.lookup, hj, if_false]
      exact ih hr

theorem mem_insert {m : Memory} {i : Nat} {w : Word} {p : Nat × Word} (h : p ∈ m.insert i w) :
    p = (i, w) ∨ p ∈ m := by
  induction m with
  | nil => simpa [Memory.insert] using h
  | cons q m ih =>
    obtain ⟨j, v⟩ := q
    simp only [Memory.insert] at h
    split at h
    · simpa using h
    · split at h
      · rcases List.mem_cons.1 h with h | h
        · exact .inl h
        · exact .inr (by simp [h])
      · rcases List.mem_cons.1 h with h | h
        · exact .inr (by simp [h])
        · rcases ih h with h | h
          · exact .inl h
          · exact .inr (by simp [h])

theorem mem_erase {m : Memory} {i : Nat} {p : Nat × Word} (h : p ∈ m.erase i) : p ∈ m := by
  induction m with
  | nil => exact h
  | cons q m ih =>
    obtain ⟨j, v⟩ := q
    simp only [Memory.erase] at h
    split at h
    · simp [h]
    · rcases List.mem_cons.1 h with h | h
      · simp [h]
      · simp [ih h]

theorem insert_rising {m : Memory} (i : Nat) (w : Word) (h : m.rising = true) : (m.insert i w).rising = true := by
  induction m with
  | nil => rfl
  | cons q m ih =>
    obtain ⟨j, v⟩ := q
    obtain ⟨ha, hr⟩ := (rising_cons j v m).1 h
    simp only [Memory.insert]
    split
    · rename_i hij
      refine (rising_cons _ _ _).2 ⟨?_, h⟩
      intro p hp
      rcases List.mem_cons.1 hp with rfl | hp
      · exact hij
      · exact Nat.lt_trans hij (ha p hp)
    · split
      · rename_i hij
        exact (rising_cons _ _ _).2 ⟨by subst hij; exact ha, hr⟩
      · refine (rising_cons _ _ _).2 ⟨?_, ih hr⟩
        intro p hp
        rcases mem_insert hp with rfl | hp
        · show j < i
          omega
        · exact ha p hp

theorem erase_rising {m : Memory} (i : Nat) (h : m.rising = true) : (m.erase i).rising = true := by
  induction m with
  | nil => rfl
  | cons q m ih =>
    obtain ⟨j, v⟩ := q
    obtain ⟨ha, hr⟩ := (rising_cons j v m).1 h
    simp only [Memory.erase]
    split
    · exact hr
    · exact (rising_cons _ _ _).2 ⟨fun p hp => ha p (mem_erase hp), ih hr⟩

theorem wf_iff (c : Config) (m : Memory) :
    m.wf c = true ↔ m.rising = true ∧ ∀ p ∈ m, resetWord c p.1 ≠ some p.2 := by
  simp only [Memory.wf, Bool.and_eq_true, List.all_eq_true, decide_eq_true_eq]

/-- A write keeps the canonical form. -/
theorem write_wf {c : Config} {m : Memory} (i : Nat) (w : Word) (h : m.wf c = true) :
    (m.write c i w).wf c = true := by
  obtain ⟨hr, ha⟩ := (wf_iff c m).1 h
  refine (wf_iff _ _).2 ?_
  simp only [Memory.write]
  split
  · exact ⟨erase_rising i hr, fun p hp => ha p (mem_erase hp)⟩
  · rename_i hw
    refine ⟨insert_rising i w hr, fun p hp => ?_⟩
    rcases mem_insert hp with rfl | hp
    · exact hw
    · exact ha p hp

/-- A fill keeps the canonical form. -/
theorem fill_wf {c : Config} {m : Memory} (w : Word) (n : Nat) (h : m.wf c = true) :
    (m.fill c w n).wf c = true := by
  induction n with
  | zero => exact h
  | succ n ih => exact write_wf _ _ ih

/-- A write leaves every other word as it was. -/
theorem read_write_other (c : Config) (m : Memory) {i j : Nat} (w : Word) (h : i ≠ j) :
    (m.write c i w).read c j = m.read c j := by
  simp only [Memory.write, Memory.read]
  by_cases hw : resetWord c i = some w
  · rw [if_pos hw, lookup_erase_other m h]
  · rw [if_neg hw, lookup_insert_other m w h]

/-- A word written reads back, in a canonical memory. -/
theorem read_write_same {c : Config} {m : Memory} (i : Nat) (w : Word) (h : m.wf c = true) :
    (m.write c i w).read c i = some w := by
  simp only [Memory.write, Memory.read]
  by_cases hw : resetWord c i = some w
  · rw [if_pos hw, lookup_erase_same i ((wf_iff c m).1 h).1]
    exact hw
  · rw [if_neg hw, lookup_insert_same]

theorem resetWord_pixel {c : Config} {i : Nat} (h1 : 1 ≤ i) (h2 : i ≤ c.stripLen) : resetWord c i = none := by
  have : i ≠ 0 := by omega
  simp [resetWord, this, h2]

theorem resetWord_end {c : Config} {i : Nat} (h1 : c.stripLen < i) (h2 : i < bufLen c) :
    resetWord c i = some endSentinel := by
  have h3 : i ≠ 0 := by omega
  have h4 : ¬ i ≤ c.stripLen := by omega
  simp [resetWord, h3, h4, h2]

/-- A pixel word written reads back, in any memory. -/
theorem read_write_pixel {c : Config} (m : Memory) {i : Nat} (w : Word) (h1 : 1 ≤ i) (h2 : i ≤ c.stripLen) :
    (m.write c i w).read c i = some w := by
  simp [Memory.write, Memory.read, resetWord_pixel h1 h2, lookup_insert_same]

/-- A fill writes the indices `1 .. n` and no other. -/
theorem read_fill {c : Config} (m : Memory) (w : Word) {n : Nat} (h : n ≤ c.stripLen) (j : Nat) :
    (m.fill c w n).read c j = if 1 ≤ j ∧ j ≤ n then some w else m.read c j := by
  induction n with
  | zero => rw [if_neg (by omega)]; rfl
  | succ n ih =>
    simp only [Memory.fill]
    by_cases hj : 1 + n = j
    · subst hj
      rw [read_write_pixel _ w (by omega) (by omega), if_pos (by omega)]
    · rw [read_write_other _ _ _ hj, ih (by omega)]
      by_cases h1 : 1 ≤ j ∧ j ≤ n
      · rw [if_pos h1, if_pos (by omega)]
      · rw [if_neg h1, if_neg (by omega)]

/-- What a write of a pixel word lists: the word, and what was listed. -/
theorem mem_write_pixel {c : Config} {m : Memory} {i : Nat} {w : Word} {p : Nat × Word}
    (h1 : 1 ≤ i) (h2 : i ≤ c.stripLen) (h : p ∈ m.write c i w) : p = (i, w) ∨ p ∈ m := by
  simp only [Memory.write, resetWord_pixel h1 h2] at h
  exact mem_insert (by simpa using h)

/-- What a fill lists: the word at pixel indices, and what was listed. -/
theorem mem_fill {c : Config} {m : Memory} {w : Word} {n : Nat} (hn : n ≤ c.stripLen) {p : Nat × Word}
    (h : p ∈ m.fill c w n) : (1 ≤ p.1 ∧ p.1 ≤ n ∧ p.2 = w) ∨ p ∈ m := by
  induction n with
  | zero => exact .inr h
  | succ n ih =>
    rcases mem_write_pixel (by omega) (by omega) h with rfl | h
    · exact .inl ⟨by simp, by simp; omega, rfl⟩
    · rcases ih (by omega) h with ⟨a, b, e⟩ | h
      · exact .inl ⟨a, by omega, e⟩
      · exact .inr h

/-- An index that is not listed reads as reset leaves it. -/
theorem read_of_not_listed {c : Config} {m : Memory} {i : Nat} (h : ∀ p ∈ m, p.1 ≠ i) :
    m.read c i = resetWord c i := by
  have : m.lookup i = none := by
    induction m with
    | nil => rfl
    | cons p m ih =>
      obtain ⟨j, v⟩ := p
      have hj : j ≠ i := h (j, v) (by simp)
      simp only [Memory.lookup, hj, if_false]
      exact ih fun q hq => h q (by simp [hq])
  simp [Memory.read, this]

end Sys2Proof.Machine
end

