-- ==== Sys2Proof/Laws/State.lean ====
section
/-! SUPPORT. One lemma per field per update of the state: no later proof unfolds a record update. -/

namespace Sys2Proof.Machine

@[simp] theorem respond_cfg (c : RspCode) (d : Word) (s : State) : (respond c d s).cfg = s.cfg := rfl
@[simp] theorem respond_buf (c : RspCode) (d : Word) (s : State) : (respond c d s).buf = s.buf := rfl
@[simp] theorem respond_busy (c : RspCode) (d : Word) (s : State) : (respond c d s).busy = s.busy := rfl
@[simp] theorem respond_startPending (c : RspCode) (d : Word) (s : State) : (respond c d s).startPending = s.startPending := rfl
@[simp] theorem respond_engActive (c : RspCode) (d : Word) (s : State) : (respond c d s).engActive = s.engActive := rfl
@[simp] theorem respond_engPtr (c : RspCode) (d : Word) (s : State) : (respond c d s).engPtr = s.engPtr := rfl
@[simp] theorem respond_engHung (c : RspCode) (d : Word) (s : State) : (respond c d s).engHung = s.engHung := rfl
@[simp] theorem respond_wire (c : RspCode) (d : Word) (s : State) : (respond c d s).wire = s.wire := rfl
@[simp] theorem respond_cmds (c : RspCode) (d : Word) (s : State) : (respond c d s).cmds = s.cmds.tail := rfl
@[simp] theorem respond_resps (c : RspCode) (d : Word) (s : State) : (respond c d s).resps = s.resps ++ [⟨c, d⟩] := rfl
@[simp] theorem respond_violations (c : RspCode) (d : Word) (s : State) : (respond c d s).violations = s.violations := rfl
@[simp] theorem respond_turns (c : RspCode) (d : Word) (s : State) : (respond c d s).turns = s.turns := rfl
@[simp] theorem respond_tick (c : RspCode) (d : Word) (s : State) : (respond c d s).tick = s.tick := rfl
@[simp] theorem respond_draws (c : RspCode) (d : Word) (s : State) : (respond c d s).draws = s.draws := rfl

@[simp] theorem startTransfer_cfg (s : State) : (startTransfer s).cfg = s.cfg := rfl
@[simp] theorem startTransfer_buf (s : State) : (startTransfer s).buf = s.buf := rfl
@[simp] theorem startTransfer_busy (s : State) : (startTransfer s).busy = true := rfl
@[simp] theorem startTransfer_startPending (s : State) : (startTransfer s).startPending = true := rfl
@[simp] theorem startTransfer_engActive (s : State) : (startTransfer s).engActive = s.engActive := rfl
@[simp] theorem startTransfer_engPtr (s : State) : (startTransfer s).engPtr = s.engPtr := rfl
@[simp] theorem startTransfer_engHung (s : State) : (startTransfer s).engHung = s.engHung := rfl
@[simp] theorem startTransfer_wire (s : State) : (startTransfer s).wire = s.wire := rfl
@[simp] theorem startTransfer_cmds (s : State) : (startTransfer s).cmds = s.cmds := rfl
@[simp] theorem startTransfer_resps (s : State) : (startTransfer s).resps = s.resps := rfl
@[simp] theorem startTransfer_violations (s : State) : (startTransfer s).violations = s.violations := rfl
@[simp] theorem startTransfer_turns (s : State) : (startTransfer s).turns = s.turns := rfl
@[simp] theorem startTransfer_tick (s : State) : (startTransfer s).tick = s.tick := rfl
@[simp] theorem startTransfer_draws (s : State) : (startTransfer s).draws = s.draws := rfl

@[simp] theorem takeDone_cfg (s : State) : (takeDone s).cfg = s.cfg := rfl
@[simp] theorem takeDone_buf (s : State) : (takeDone s).buf = s.buf := rfl
@[simp] theorem takeDone_busy (s : State) : (takeDone s).busy = false := rfl
@[simp] theorem takeDone_startPending (s : State) : (takeDone s).startPending = s.startPending := rfl
@[simp] theorem takeDone_engActive (s : State) : (takeDone s).engActive = s.engActive := rfl
@[simp] theorem takeDone_engPtr (s : State) : (takeDone s).engPtr = s.engPtr := rfl
@[simp] theorem takeDone_engHung (s : State) : (takeDone s).engHung = s.engHung := rfl
@[simp] theorem takeDone_wire (s : State) : (takeDone s).wire = s.wire := rfl
@[simp] theorem takeDone_cmds (s : State) : (takeDone s).cmds = s.cmds := rfl
@[simp] theorem takeDone_resps (s : State) : (takeDone s).resps = s.resps := rfl
@[simp] theorem takeDone_violations (s : State) : (takeDone s).violations = s.violations := rfl
@[simp] theorem takeDone_turns (s : State) : (takeDone s).turns = s.turns := rfl
@[simp] theorem takeDone_tick (s : State) : (takeDone s).tick = s.tick := rfl
@[simp] theorem takeDone_draws (s : State) : (takeDone s).draws = s.draws := rfl

@[simp] theorem bufWrite_cfg (s : State) (i : Nat) (v : Word) : (bufWrite s i v).cfg = s.cfg := rfl
@[simp] theorem bufWrite_buf (s : State) (i : Nat) (v : Word) : (bufWrite s i v).buf = s.buf.write s.cfg i v := rfl
@[simp] theorem bufWrite_busy (s : State) (i : Nat) (v : Word) : (bufWrite s i v).busy = s.busy := rfl
@[simp] theorem bufWrite_startPending (s : State) (i : Nat) (v : Word) : (bufWrite s i v).startPending = s.startPending := rfl
@[simp] theorem bufWrite_engActive (s : State) (i : Nat) (v : Word) : (bufWrite s i v).engActive = s.engActive := rfl
@[simp] theorem bufWrite_engPtr (s : State) (i : Nat) (v : Word) : (bufWrite s i v).engPtr = s.engPtr := rfl
@[simp] theorem bufWrite_engHung (s : State) (i : Nat) (v : Word) : (bufWrite s i v).engHung = s.engHung := rfl
@[simp] theorem bufWrite_wire (s : State) (i : Nat) (v : Word) : (bufWrite s i v).wire = s.wire := rfl
@[simp] theorem bufWrite_cmds (s : State) (i : Nat) (v : Word) : (bufWrite s i v).cmds = s.cmds := rfl
@[simp] theorem bufWrite_resps (s : State) (i : Nat) (v : Word) : (bufWrite s i v).resps = s.resps := rfl
@[simp] theorem bufWrite_violations (s : State) (i : Nat) (v : Word) : (bufWrite s i v).violations = s.violations := rfl
@[simp] theorem bufWrite_turns (s : State) (i : Nat) (v : Word) : (bufWrite s i v).turns = s.turns := rfl
@[simp] theorem bufWrite_tick (s : State) (i : Nat) (v : Word) : (bufWrite s i v).tick = s.tick := rfl
@[simp] theorem bufWrite_draws (s : State) (i : Nat) (v : Word) : (bufWrite s i v).draws = s.draws := rfl

@[simp] theorem writeAllPixels_cfg (w : Word) (s : State) : (writeAllPixels w s).cfg = s.cfg := rfl
@[simp] theorem writeAllPixels_buf (w : Word) (s : State) : (writeAllPixels w s).buf = s.buf.fill s.cfg w s.cfg.stripLen := rfl
@[simp] theorem writeAllPixels_busy (w : Word) (s : State) : (writeAllPixels w s).busy = s.busy := rfl
@[simp] theorem writeAllPixels_startPending (w : Word) (s : State) : (writeAllPixels w s).startPending = s.startPending := rfl
@[simp] theorem writeAllPixels_engActive (w : Word) (s : State) : (writeAllPixels w s).engActive = s.engActive := rfl
@[simp] theorem writeAllPixels_engPtr (w : Word) (s : State) : (writeAllPixels w s).engPtr = s.engPtr := rfl
@[simp] theorem writeAllPixels_engHung (w : Word) (s : State) : (writeAllPixels w s).engHung = s.engHung := rfl
@[simp] theorem writeAllPixels_wire (w : Word) (s : State) : (writeAllPixels w s).wire = s.wire := rfl
@[simp] theorem writeAllPixels_cmds (w : Word) (s : State) : (writeAllPixels w s).cmds = s.cmds := rfl
@[simp] theorem writeAllPixels_resps (w : Word) (s : State) : (writeAllPixels w s).resps = s.resps := rfl
@[simp] theorem writeAllPixels_violations (w : Word) (s : State) : (writeAllPixels w s).violations = s.violations := rfl
@[simp] theorem writeAllPixels_turns (w : Word) (s : State) : (writeAllPixels w s).turns = s.turns := rfl
@[simp] theorem writeAllPixels_tick (w : Word) (s : State) : (writeAllPixels w s).tick = s.tick := rfl
@[simp] theorem writeAllPixels_draws (w : Word) (s : State) : (writeAllPixels w s).draws = s.draws := rfl

@[simp] theorem draw32_cfg (s : State) : (draw32 s).2.cfg = s.cfg := rfl
@[simp] theorem draw32_buf (s : State) : (draw32 s).2.buf = s.buf := rfl
@[simp] theorem draw32_busy (s : State) : (draw32 s).2.busy = s.busy := rfl
@[simp] theorem draw32_startPending (s : State) : (draw32 s).2.startPending = s.startPending := rfl
@[simp] theorem draw32_engActive (s : State) : (draw32 s).2.engActive = s.engActive := rfl
@[simp] theorem draw32_engPtr (s : State) : (draw32 s).2.engPtr = s.engPtr := rfl
@[simp] theorem draw32_engHung (s : State) : (draw32 s).2.engHung = s.engHung := rfl
@[simp] theorem draw32_wire (s : State) : (draw32 s).2.wire = s.wire := rfl
@[simp] theorem draw32_cmds (s : State) : (draw32 s).2.cmds = s.cmds := rfl
@[simp] theorem draw32_resps (s : State) : (draw32 s).2.resps = s.resps := rfl
@[simp] theorem draw32_violations (s : State) : (draw32 s).2.violations = s.violations := rfl
@[simp] theorem draw32_turns (s : State) : (draw32 s).2.turns = s.turns := rfl
@[simp] theorem draw32_tick (s : State) : (draw32 s).2.tick = s.tick := rfl
@[simp] theorem draw32_draws (s : State) : (draw32 s).2.draws = s.draws + 1 := rfl

@[simp] theorem resetBlock_cfg (s : State) : (resetBlock s).cfg = s.cfg := rfl
@[simp] theorem resetBlock_buf (s : State) : (resetBlock s).buf = [] := rfl
@[simp] theorem resetBlock_busy (s : State) : (resetBlock s).busy = false := rfl
@[simp] theorem resetBlock_startPending (s : State) : (resetBlock s).startPending = false := rfl
@[simp] theorem resetBlock_engActive (s : State) : (resetBlock s).engActive = s.engActive := rfl
@[simp] theorem resetBlock_engPtr (s : State) : (resetBlock s).engPtr = s.engPtr := rfl
@[simp] theorem resetBlock_engHung (s : State) : (resetBlock s).engHung = s.engHung := rfl
@[simp] theorem resetBlock_wire (s : State) : (resetBlock s).wire = [] := rfl
@[simp] theorem resetBlock_cmds (s : State) : (resetBlock s).cmds = [] := rfl
@[simp] theorem resetBlock_resps (s : State) : (resetBlock s).resps = s.resps := rfl
@[simp] theorem resetBlock_violations (s : State) : (resetBlock s).violations = s.violations := rfl
@[simp] theorem resetBlock_turns (s : State) : (resetBlock s).turns = s.turns := rfl
@[simp] theorem resetBlock_tick (s : State) : (resetBlock s).tick = s.tick := rfl
@[simp] theorem resetBlock_draws (s : State) : (resetBlock s).draws = s.draws := rfl

@[simp] theorem resetEngine_cfg (s : State) : (resetEngine s).cfg = s.cfg := rfl
@[simp] theorem resetEngine_buf (s : State) : (resetEngine s).buf = s.buf := rfl
@[simp] theorem resetEngine_busy (s : State) : (resetEngine s).busy = s.busy := rfl
@[simp] theorem resetEngine_startPending (s : State) : (resetEngine s).startPending = s.startPending := rfl
@[simp] theorem resetEngine_engActive (s : State) : (resetEngine s).engActive = false := rfl
@[simp] theorem resetEngine_engPtr (s : State) : (resetEngine s).engPtr = 0 := rfl
@[simp] theorem resetEngine_engHung (s : State) : (resetEngine s).engHung = false := rfl
@[simp] theorem resetEngine_wire (s : State) : (resetEngine s).wire = s.wire := rfl
@[simp] theorem resetEngine_cmds (s : State) : (resetEngine s).cmds = s.cmds := rfl
@[simp] theorem resetEngine_resps (s : State) : (resetEngine s).resps = s.resps := rfl
@[simp] theorem resetEngine_violations (s : State) : (resetEngine s).violations = s.violations := rfl
@[simp] theorem resetEngine_turns (s : State) : (resetEngine s).turns = s.turns := rfl
@[simp] theorem resetEngine_tick (s : State) : (resetEngine s).tick = s.tick := rfl
@[simp] theorem resetEngine_draws (s : State) : (resetEngine s).draws = s.draws := rfl

@[simp] theorem recordViolation_cfg (v : Violation) (s : State) : (recordViolation v s).cfg = s.cfg := rfl
@[simp] theorem recordViolation_buf (v : Violation) (s : State) : (recordViolation v s).buf = s.buf := rfl
@[simp] theorem recordViolation_busy (v : Violation) (s : State) : (recordViolation v s).busy = s.busy := rfl
@[simp] theorem recordViolation_startPending (v : Violation) (s : State) : (recordViolation v s).startPending = s.startPending := rfl
@[simp] theorem recordViolation_engActive (v : Violation) (s : State) : (recordViolation v s).engActive = s.engActive := rfl
@[simp] theorem recordViolation_engPtr (v : Violation) (s : State) : (recordViolation v s).engPtr = s.engPtr := rfl
@[simp] theorem recordViolation_engHung (v : Violation) (s : State) : (recordViolation v s).engHung = s.engHung := rfl
@[simp] theorem recordViolation_wire (v : Violation) (s : State) : (recordViolation v s).wire = s.wire := rfl
@[simp] theorem recordViolation_cmds (v : Violation) (s : State) : (recordViolation v s).cmds = s.cmds := rfl
@[simp] theorem recordViolation_resps (v : Violation) (s : State) : (recordViolation v s).resps = s.resps := rfl
@[simp] theorem recordViolation_violations (v : Violation) (s : State) : (recordViolation v s).violations = s.violations ++ [v] := rfl
@[simp] theorem recordViolation_turns (v : Violation) (s : State) : (recordViolation v s).turns = s.turns := rfl
@[simp] theorem recordViolation_tick (v : Violation) (s : State) : (recordViolation v s).tick = s.tick := rfl
@[simp] theorem recordViolation_draws (v : Violation) (s : State) : (recordViolation v s).draws = s.draws := rfl

@[simp] theorem engineAccept_cfg (s : State) : (engineAccept s).cfg = s.cfg := rfl
@[simp] theorem engineAccept_buf (s : State) : (engineAccept s).buf = s.buf := rfl
@[simp] theorem engineAccept_busy (s : State) : (engineAccept s).busy = s.busy := rfl
@[simp] theorem engineAccept_startPending (s : State) : (engineAccept s).startPending = false := rfl
@[simp] theorem engineAccept_engActive (s : State) : (engineAccept s).engActive = true := rfl
@[simp] theorem engineAccept_engPtr (s : State) : (engineAccept s).engPtr = 0 := rfl
@[simp] theorem engineAccept_engHung (s : State) : (engineAccept s).engHung = s.engHung := rfl
@[simp] theorem engineAccept_wire (s : State) : (engineAccept s).wire = s.wire ++ [[]] := rfl
@[simp] theorem engineAccept_cmds (s : State) : (engineAccept s).cmds = s.cmds := rfl
@[simp] theorem engineAccept_resps (s : State) : (engineAccept s).resps = s.resps := rfl
@[simp] theorem engineAccept_violations (s : State) : (engineAccept s).violations = s.violations := rfl
@[simp] theorem engineAccept_turns (s : State) : (engineAccept s).turns = s.turns := rfl
@[simp] theorem engineAccept_tick (s : State) : (engineAccept s).tick = s.tick := rfl
@[simp] theorem engineAccept_draws (s : State) : (engineAccept s).draws = s.draws := rfl

@[simp] theorem engineDone_cfg (s : State) : (engineDone s).cfg = s.cfg := rfl
@[simp] theorem engineDone_buf (s : State) : (engineDone s).buf = s.buf := rfl
@[simp] theorem engineDone_busy (s : State) : (engineDone s).busy = false := rfl
@[simp] theorem engineDone_startPending (s : State) : (engineDone s).startPending = s.startPending := rfl
@[simp] theorem engineDone_engActive (s : State) : (engineDone s).engActive = false := rfl
@[simp] theorem engineDone_engPtr (s : State) : (engineDone s).engPtr = s.engPtr := rfl
@[simp] theorem engineDone_engHung (s : State) : (engineDone s).engHung = s.engHung := rfl
@[simp] theorem engineDone_wire (s : State) : (engineDone s).wire = s.wire := rfl
@[simp] theorem engineDone_cmds (s : State) : (engineDone s).cmds = s.cmds := rfl
@[simp] theorem engineDone_resps (s : State) : (engineDone s).resps = s.resps := rfl
@[simp] theorem engineDone_violations (s : State) : (engineDone s).violations = s.violations := rfl
@[simp] theorem engineDone_turns (s : State) : (engineDone s).turns = s.turns := rfl
@[simp] theorem engineDone_tick (s : State) : (engineDone s).tick = s.tick := rfl
@[simp] theorem engineDone_draws (s : State) : (engineDone s).draws = s.draws := rfl

@[simp] theorem engineHang_cfg (s : State) : (engineHang s).cfg = s.cfg := rfl
@[simp] theorem engineHang_buf (s : State) : (engineHang s).buf = s.buf := rfl
@[simp] theorem engineHang_busy (s : State) : (engineHang s).busy = s.busy := rfl
@[simp] theorem engineHang_startPending (s : State) : (engineHang s).startPending = s.startPending := rfl
@[simp] theorem engineHang_engActive (s : State) : (engineHang s).engActive = s.engActive := rfl
@[simp] theorem engineHang_engPtr (s : State) : (engineHang s).engPtr = s.engPtr := rfl
@[simp] theorem engineHang_engHung (s : State) : (engineHang s).engHung = true := rfl
@[simp] theorem engineHang_wire (s : State) : (engineHang s).wire = s.wire := rfl
@[simp] theorem engineHang_cmds (s : State) : (engineHang s).cmds = s.cmds := rfl
@[simp] theorem engineHang_resps (s : State) : (engineHang s).resps = s.resps := rfl
@[simp] theorem engineHang_violations (s : State) : (engineHang s).violations = s.violations := rfl
@[simp] theorem engineHang_turns (s : State) : (engineHang s).turns = s.turns := rfl
@[simp] theorem engineHang_tick (s : State) : (engineHang s).tick = s.tick := rfl
@[simp] theorem engineHang_draws (s : State) : (engineHang s).draws = s.draws := rfl

@[simp] theorem resetTogether_cfg (s : State) : (resetTogether s).cfg = s.cfg := rfl
@[simp] theorem resetTogether_buf (s : State) : (resetTogether s).buf = [] := rfl
@[simp] theorem resetTogether_busy (s : State) : (resetTogether s).busy = false := rfl
@[simp] theorem resetTogether_startPending (s : State) : (resetTogether s).startPending = false := rfl
@[simp] theorem resetTogether_engActive (s : State) : (resetTogether s).engActive = false := rfl
@[simp] theorem resetTogether_engPtr (s : State) : (resetTogether s).engPtr = 0 := rfl
@[simp] theorem resetTogether_engHung (s : State) : (resetTogether s).engHung = false := rfl
@[simp] theorem resetTogether_wire (s : State) : (resetTogether s).wire = [] := rfl
@[simp] theorem resetTogether_cmds (s : State) : (resetTogether s).cmds = [] := rfl
@[simp] theorem resetTogether_resps (s : State) : (resetTogether s).resps = s.resps := rfl
@[simp] theorem resetTogether_violations (s : State) : (resetTogether s).violations = s.violations := rfl
@[simp] theorem resetTogether_turns (s : State) : (resetTogether s).turns = s.turns := rfl
@[simp] theorem resetTogether_tick (s : State) : (resetTogether s).tick = s.tick := rfl
@[simp] theorem resetTogether_draws (s : State) : (resetTogether s).draws = s.draws := rfl

@[simp] theorem resetBlockAlone_cfg (s : State) : (resetBlockAlone s).cfg = s.cfg := rfl
@[simp] theorem resetBlockAlone_buf (s : State) : (resetBlockAlone s).buf = [] := rfl
@[simp] theorem resetBlockAlone_busy (s : State) : (resetBlockAlone s).busy = false := rfl
@[simp] theorem resetBlockAlone_startPending (s : State) : (resetBlockAlone s).startPending = false := rfl
@[simp] theorem resetBlockAlone_engActive (s : State) : (resetBlockAlone s).engActive = s.engActive := rfl
@[simp] theorem resetBlockAlone_engPtr (s : State) : (resetBlockAlone s).engPtr = s.engPtr := rfl
@[simp] theorem resetBlockAlone_engHung (s : State) : (resetBlockAlone s).engHung = s.engHung := rfl
@[simp] theorem resetBlockAlone_wire (s : State) : (resetBlockAlone s).wire = [] := rfl
@[simp] theorem resetBlockAlone_cmds (s : State) : (resetBlockAlone s).cmds = [] := rfl
@[simp] theorem resetBlockAlone_resps (s : State) : (resetBlockAlone s).resps = s.resps := rfl
@[simp] theorem resetBlockAlone_violations (s : State) : (resetBlockAlone s).violations = s.violations ++ [.engineNotReset] := rfl
@[simp] theorem resetBlockAlone_turns (s : State) : (resetBlockAlone s).turns = s.turns := rfl
@[simp] theorem resetBlockAlone_tick (s : State) : (resetBlockAlone s).tick = s.tick := rfl
@[simp] theorem resetBlockAlone_draws (s : State) : (resetBlockAlone s).draws = s.draws := rfl

@[simp] theorem strayDonePulse_cfg (s : State) : (strayDonePulse s).cfg = s.cfg := rfl
@[simp] theorem strayDonePulse_buf (s : State) : (strayDonePulse s).buf = s.buf := rfl
@[simp] theorem strayDonePulse_busy (s : State) : (strayDonePulse s).busy = false := rfl
@[simp] theorem strayDonePulse_startPending (s : State) : (strayDonePulse s).startPending = s.startPending := rfl
@[simp] theorem strayDonePulse_engActive (s : State) : (strayDonePulse s).engActive = s.engActive := rfl
@[simp] theorem strayDonePulse_engPtr (s : State) : (strayDonePulse s).engPtr = s.engPtr := rfl
@[simp] theorem strayDonePulse_engHung (s : State) : (strayDonePulse s).engHung = s.engHung := rfl
@[simp] theorem strayDonePulse_wire (s : State) : (strayDonePulse s).wire = s.wire := rfl
@[simp] theorem strayDonePulse_cmds (s : State) : (strayDonePulse s).cmds = s.cmds := rfl
@[simp] theorem strayDonePulse_resps (s : State) : (strayDonePulse s).resps = s.resps := rfl
@[simp] theorem strayDonePulse_violations (s : State) : (strayDonePulse s).violations = s.violations ++ [if s.busy then .strayDone else .doneWhileIdle] := rfl
@[simp] theorem strayDonePulse_turns (s : State) : (strayDonePulse s).turns = s.turns := rfl
@[simp] theorem strayDonePulse_tick (s : State) : (strayDonePulse s).tick = s.tick := rfl
@[simp] theorem strayDonePulse_draws (s : State) : (strayDonePulse s).draws = s.draws := rfl

@[simp] theorem draw32_word (s : State) : (draw32 s).1 = Config.draw s.draws := rfl
@[simp] theorem hold_eq (s : State) : hold s = s := rfl

end Sys2Proof.Machine
end

