-- ==== Sys2Proof/Laws/Ops.lean ====
section
/-! SUPPORT. What each shared operation can do, said once: the reads, the pixel writes, a command that holds or is
performed, the answer to an offered word, the turns. -/

namespace Sys2Proof.Machine

/-- The word BufRead gives: the defined word, or the next draw. -/
theorem bufRead_word (s : State) (i : Nat) : (bufRead s i).1 = (wordAt s i).getD (Config.draw s.draws) := by
  unfold bufRead
  cases wordAt s i <;> rfl

/-- BufRead changes nothing but the count of draws. -/
theorem bufRead_state (s : State) (i : Nat) :
    (bufRead s i).2 = { s with draws := if isDefined s i then s.draws else s.draws + 1 } := by
  unfold bufRead isDefined
  cases wordAt s i <;> rfl

/-- The word a DMA read gives. -/
theorem dmaRead_word (s : State) (a : Nat) :
    (dmaRead s a).1 = if a < bufLen s.cfg then (wordAt s a).getD (Config.draw s.draws) else Config.draw s.draws := by
  unfold dmaRead
  split
  · exact bufRead_word s a
  · rfl

/-- A DMA read changes nothing but the count of draws. -/
theorem dmaRead_state (s : State) (a : Nat) : ∃ n, (dmaRead s a).2 = { s with draws := n } := by
  unfold dmaRead
  split
  · exact ⟨_, bufRead_state s a⟩
  · exact ⟨_, rfl⟩

/-- READ_WORD's read changes nothing but the count of draws. -/
theorem readIndexed_state (idx : Int) (s : State) : ∃ n, (readIndexed idx s).2 = { s with draws := n } := by
  unfold readIndexed
  split
  · exact ⟨_, bufRead_state s _⟩
  · exact ⟨_, rfl⟩

@[simp] theorem dmaRead_cfg (s : State) (a : Nat) : (dmaRead s a).2.cfg = s.cfg := by
  obtain ⟨n, h⟩ := dmaRead_state s a
  rw [h]
@[simp] theorem dmaRead_buf (s : State) (a : Nat) : (dmaRead s a).2.buf = s.buf := by
  obtain ⟨n, h⟩ := dmaRead_state s a
  rw [h]
@[simp] theorem dmaRead_busy (s : State) (a : Nat) : (dmaRead s a).2.busy = s.busy := by
  obtain ⟨n, h⟩ := dmaRead_state s a
  rw [h]
@[simp] theorem dmaRead_startPending (s : State) (a : Nat) : (dmaRead s a).2.startPending = s.startPending := by
  obtain ⟨n, h⟩ := dmaRead_state s a
  rw [h]
@[simp] theorem dmaRead_engActive (s : State) (a : Nat) : (dmaRead s a).2.engActive = s.engActive := by
  obtain ⟨n, h⟩ := dmaRead_state s a
  rw [h]
@[simp] theorem dmaRead_engPtr (s : State) (a : Nat) : (dmaRead s a).2.engPtr = s.engPtr := by
  obtain ⟨n, h⟩ := dmaRead_state s a
  rw [h]
@[simp] theorem dmaRead_engHung (s : State) (a : Nat) : (dmaRead s a).2.engHung = s.engHung := by
  obtain ⟨n, h⟩ := dmaRead_state s a
  rw [h]
@[simp] theorem dmaRead_wire (s : State) (a : Nat) : (dmaRead s a).2.wire = s.wire := by
  obtain ⟨n, h⟩ := dmaRead_state s a
  rw [h]
@[simp] theorem dmaRead_cmds (s : State) (a : Nat) : (dmaRead s a).2.cmds = s.cmds := by
  obtain ⟨n, h⟩ := dmaRead_state s a
  rw [h]
@[simp] theorem dmaRead_resps (s : State) (a : Nat) : (dmaRead s a).2.resps = s.resps := by
  obtain ⟨n, h⟩ := dmaRead_state s a
  rw [h]
@[simp] theorem dmaRead_violations (s : State) (a : Nat) : (dmaRead s a).2.violations = s.violations := by
  obtain ⟨n, h⟩ := dmaRead_state s a
  rw [h]
@[simp] theorem dmaRead_turns (s : State) (a : Nat) : (dmaRead s a).2.turns = s.turns := by
  obtain ⟨n, h⟩ := dmaRead_state s a
  rw [h]
@[simp] theorem dmaRead_tick (s : State) (a : Nat) : (dmaRead s a).2.tick = s.tick := by
  obtain ⟨n, h⟩ := dmaRead_state s a
  rw [h]

@[simp] theorem readIndexed_cfg (idx : Int) (s : State) : (readIndexed idx s).2.cfg = s.cfg := by
  obtain ⟨n, h⟩ := readIndexed_state idx s
  rw [h]
@[simp] theorem readIndexed_buf (idx : Int) (s : State) : (readIndexed idx s).2.buf = s.buf := by
  obtain ⟨n, h⟩ := readIndexed_state idx s
  rw [h]
@[simp] theorem readIndexed_busy (idx : Int) (s : State) : (readIndexed idx s).2.busy = s.busy := by
  obtain ⟨n, h⟩ := readIndexed_state idx s
  rw [h]
@[simp] theorem readIndexed_startPending (idx : Int) (s : State) : (readIndexed idx s).2.startPending = s.startPending := by
  obtain ⟨n, h⟩ := readIndexed_state idx s
  rw [h]
@[simp] theorem readIndexed_engActive (idx : Int) (s : State) : (readIndexed idx s).2.engActive = s.engActive := by
  obtain ⟨n, h⟩ := readIndexed_state idx s
  rw [h]
@[simp] theorem readIndexed_engPtr (idx : Int) (s : State) : (readIndexed idx s).2.engPtr = s.engPtr := by
  obtain ⟨n, h⟩ := readIndexed_state idx s
  rw [h]
@[simp] theorem readIndexed_engHung (idx : Int) (s : State) : (readIndexed idx s).2.engHung = s.engHung := by
  obtain ⟨n, h⟩ := readIndexed_state idx s
  rw [h]
@[simp] theorem readIndexed_wire (idx : Int) (s : State) : (readIndexed idx s).2.wire = s.wire := by
  obtain ⟨n, h⟩ := readIndexed_state idx s
  rw [h]
@[simp] theorem readIndexed_cmds (idx : Int) (s : State) : (readIndexed idx s).2.cmds = s.cmds := by
  obtain ⟨n, h⟩ := readIndexed_state idx s
  rw [h]
@[simp] theorem readIndexed_resps (idx : Int) (s : State) : (readIndexed idx s).2.resps = s.resps := by
  obtain ⟨n, h⟩ := readIndexed_state idx s
  rw [h]
@[simp] theorem readIndexed_violations (idx : Int) (s : State) : (readIndexed idx s).2.violations = s.violations := by
  obtain ⟨n, h⟩ := readIndexed_state idx s
  rw [h]
@[simp] theorem readIndexed_turns (idx : Int) (s : State) : (readIndexed idx s).2.turns = s.turns := by
  obtain ⟨n, h⟩ := readIndexed_state idx s
  rw [h]
@[simp] theorem readIndexed_tick (idx : Int) (s : State) : (readIndexed idx s).2.tick = s.tick := by
  obtain ⟨n, h⟩ := readIndexed_state idx s
  rw [h]

/-- The pixel write is a write of the one word the index names, or nothing. -/
theorem writePixel_eq (idx : Int) (w : Word) (s : State) :
    (∃ a, pixelAddress s.cfg idx = some a ∧ writePixel idx w s = bufWrite s a w) ∨
    (pixelAddress s.cfg idx = none ∧ writePixel idx w s = s) := by
  unfold writePixel
  cases h : pixelAddress s.cfg idx with
  | some a => exact .inl ⟨a, rfl, rfl⟩
  | none => exact .inr ⟨rfl, rfl⟩

@[simp] theorem writePixel_cfg (idx : Int) (w : Word) (s : State) : (writePixel idx w s).cfg = s.cfg := by
  unfold writePixel
  split <;> rfl
@[simp] theorem writePixel_busy (idx : Int) (w : Word) (s : State) : (writePixel idx w s).busy = s.busy := by
  unfold writePixel
  split <;> rfl
@[simp] theorem writePixel_startPending (idx : Int) (w : Word) (s : State) : (writePixel idx w s).startPending = s.startPending := by
  unfold writePixel
  split <;> rfl
@[simp] theorem writePixel_engActive (idx : Int) (w : Word) (s : State) : (writePixel idx w s).engActive = s.engActive := by
  unfold writePixel
  split <;> rfl
@[simp] theorem writePixel_engPtr (idx : Int) (w : Word) (s : State) : (writePixel idx w s).engPtr = s.engPtr := by
  unfold writePixel
  split <;> rfl
@[simp] theorem writePixel_engHung (idx : Int) (w : Word) (s : State) : (writePixel idx w s).engHung = s.engHung := by
  unfold writePixel
  split <;> rfl
@[simp] theorem writePixel_wire (idx : Int) (w : Word) (s : State) : (writePixel idx w s).wire = s.wire := by
  unfold writePixel
  split <;> rfl
@[simp] theorem writePixel_cmds (idx : Int) (w : Word) (s : State) : (writePixel idx w s).cmds = s.cmds := by
  unfold writePixel
  split <;> rfl
@[simp] theorem writePixel_resps (idx : Int) (w : Word) (s : State) : (writePixel idx w s).resps = s.resps := by
  unfold writePixel
  split <;> rfl
@[simp] theorem writePixel_violations (idx : Int) (w : Word) (s : State) : (writePixel idx w s).violations = s.violations := by
  unfold writePixel
  split <;> rfl
@[simp] theorem writePixel_turns (idx : Int) (w : Word) (s : State) : (writePixel idx w s).turns = s.turns := by
  unfold writePixel
  split <;> rfl
@[simp] theorem writePixel_tick (idx : Int) (w : Word) (s : State) : (writePixel idx w s).tick = s.tick := by
  unfold writePixel
  split <;> rfl
@[simp] theorem writePixel_draws (idx : Int) (w : Word) (s : State) : (writePixel idx w s).draws = s.draws := by
  unfold writePixel
  split <;> rfl

/-- A pixel index in range names the word one above it; out of range it names none. -/
theorem pixelAddress_eq_some {c : Config} {idx : Int} {a : Nat} :
    pixelAddress c idx = some a ↔ 0 ≤ idx ∧ idx < c.stripLen ∧ (a : Int) = 1 + idx := by
  unfold pixelAddress
  split
  · simp only [Option.some.injEq]
    omega
  · simp only [reduceCtorEq, false_iff]
    omega

/-- The word a pixel index names is a pixel word. -/
theorem pixelAddress_range {c : Config} {idx : Int} {a : Nat} (h : pixelAddress c idx = some a) :
    1 ≤ a ∧ a ≤ c.stripLen := by
  have := pixelAddress_eq_some.1 h
  omega

/-- What a pixel write leaves in each word. -/
theorem wordAt_writePixel (idx : Int) (w : Word) (s : State) (j : Nat) :
    wordAt (writePixel idx w s) j = if pixelAddress s.cfg idx = some j then some w else wordAt s j := by
  rcases writePixel_eq idx w s with ⟨a, ha, h⟩ | ⟨ha, h⟩
  · obtain ⟨h1, h2⟩ := pixelAddress_range ha
    rw [h, ha]
    by_cases hj : a = j
    · subst hj
      simp [wordAt, read_write_pixel _ w h1 h2]
    · simp [wordAt, hj, read_write_other _ _ w hj]
  · rw [h, ha]
    simp

/-- What SET_ALL's loop leaves in each word. -/
theorem wordAt_writeAllPixels (w : Word) (s : State) (j : Nat) :
    wordAt (writeAllPixels w s) j = if 1 ≤ j ∧ j ≤ s.cfg.stripLen then some w else wordAt s j := by
  simp [wordAt, read_fill s.buf w (Nat.le_refl s.cfg.stripLen)]

/-- `wordAt` sees only the buffer and the configuration. -/
theorem wordAt_congr {s t : State} (hb : t.buf = s.buf) (hc : t.cfg = s.cfg) (i : Nat) : wordAt t i = wordAt s i := by
  simp [wordAt, hb, hc]

/-- The effect of a performed command on the state, before its response. -/
def effect : Instr → State → State
  | .nop, s => s
  | .encode _ _ _ _, s => s
  | .setPixel idx r g b bri, s => writePixel idx (frameWord r g b bri) s
  | .setAll r g b bri, s => writeAllPixels (frameWord r g b bri) s
  | .beginTransfer, s => startTransfer s
  | .wait, s => s
  | .status, s => s
  | .readWord idx, s => (readIndexed idx s).2

/-- The response data of a performed command (30_encoding.md R81). -/
def answer : Instr → State → Word
  | .nop, _ => 0#32
  | .encode r g b bri, _ => frameWord r g b bri
  | .setPixel _ _ _ _ _, _ => 0#32
  | .setAll _ _ _ _, _ => 0#32
  | .beginTransfer, _ => 0#32
  | .wait, _ => 0#32
  | .status, s => statusWord s
  | .readWord idx, s => (readIndexed idx s).1

/-- Everything a command can do: it holds, or it has its effect and is answered OK. -/
theorem exec_eq (i : Instr) (s : State) :
    exec i s = .next (if needsIdle i && s.busy then s else respond .ok (answer i s) (effect i s)) := by
  cases i <;> cases hb : s.busy <;>
    simp [exec, execNop, execEncode, execSetPixel, execSetAll, execBeginTransfer, execWait, execStatus, execReadWord,
      needsIdle, whenIdle, hb, answer, effect]

/-- A command that needs BUSY = 0 holds while BUSY = 1. -/
theorem exec_held {i : Instr} {s : State} (hi : needsIdle i = true) (hb : s.busy = true) : exec i s = .next s := by
  rw [exec_eq]
  simp [hi, hb]

/-- A command that does not hold has its effect and is answered OK. -/
theorem exec_performed {i : Instr} {s : State} (h : (needsIdle i && s.busy) = false) :
    exec i s = .next (respond .ok (answer i s) (effect i s)) := by
  rw [exec_eq, h]
  simp

/-- No command's effect changes the configuration, the engine, the logs, the queue or the turns. -/
theorem effect_frame (i : Instr) (s : State) :
    (effect i s).cfg = s.cfg ∧ (effect i s).engActive = s.engActive ∧ (effect i s).engPtr = s.engPtr ∧
    (effect i s).engHung = s.engHung ∧ (effect i s).wire = s.wire ∧ (effect i s).cmds = s.cmds ∧
    (effect i s).resps = s.resps ∧ (effect i s).violations = s.violations ∧ (effect i s).turns = s.turns ∧
    (effect i s).tick = s.tick := by
  cases i <;> simp [effect]

/-- Only BEGIN_TRANSFER's effect changes BUSY and the start event. -/
theorem effect_busy (i : Instr) (s : State) :
    (effect i s).busy = (if i = .beginTransfer then true else s.busy) ∧
    (effect i s).startPending = (if i = .beginTransfer then true else s.startPending) := by
  cases i <;> simp [effect]

/-- Each word of the buffer after a command's effect: an earlier word, or the command's pixel word at a pixel index. -/
theorem wordAt_effect (i : Instr) (s : State) (j : Nat) :
    wordAt (effect i s) j = wordAt s j ∨
    (1 ≤ j ∧ j ≤ s.cfg.stripLen ∧ ∃ r g b bri, wordAt (effect i s) j = some (frameWord r g b bri)) := by
  cases i with
  | setPixel idx r g b bri =>
    simp only [effect, wordAt_writePixel]
    split
    · rename_i h
      obtain ⟨h1, h2⟩ := pixelAddress_range h
      exact .inr ⟨h1, h2, r, g, b, bri, rfl⟩
    · exact .inl rfl
  | setAll r g b bri =>
    simp only [effect, wordAt_writeAllPixels]
    split
    · rename_i h
      exact .inr ⟨h.1, h.2, r, g, b, bri, rfl⟩
    · exact .inl rfl
  | readWord idx => exact .inl (wordAt_congr (by simp [effect]) (by simp [effect]) j)
  | beginTransfer => exact .inl rfl
  | nop => exact .inl rfl
  | encode => exact .inl rfl
  | wait => exact .inl rfl
  | status => exact .inl rfl

/-- What the list of written words holds after a command's effect. -/
theorem mem_effect {i : Instr} {s : State} {p : Nat × Word} (h : p ∈ (effect i s).buf) :
    p ∈ s.buf ∨ (1 ≤ p.1 ∧ p.1 ≤ s.cfg.stripLen ∧ ∃ r g b bri, p.2 = frameWord r g b bri) := by
  cases i with
  | setPixel idx r g b bri =>
    simp only [effect] at h
    rcases writePixel_eq idx (frameWord r g b bri) s with ⟨a, ha, he⟩ | ⟨_, he⟩
    · obtain ⟨h1, h2⟩ := pixelAddress_range ha
      rw [he] at h
      rcases mem_write_pixel h1 h2 h with rfl | h
      · exact .inr ⟨h1, h2, r, g, b, bri, rfl⟩
      · exact .inl h
    · rw [he] at h
      exact .inl h
  | setAll r g b bri =>
    rcases mem_fill (Nat.le_refl _) h with ⟨h1, h2, h3⟩ | h
    · exact .inr ⟨h1, h2, r, g, b, bri, h3⟩
    · exact .inl h
  | readWord idx =>
    simp only [effect, readIndexed_buf] at h
    exact .inl h
  | beginTransfer => exact .inl h
  | nop => exact .inl h
  | encode => exact .inl h
  | wait => exact .inl h
  | status => exact .inl h

/-- A command's effect keeps the canonical form of the buffer. -/
theorem effect_wf {i : Instr} {s : State} (h : s.buf.wf s.cfg = true) :
    (effect i s).buf.wf (effect i s).cfg = true := by
  cases i with
  | setPixel idx r g b bri =>
    simp only [effect]
    rcases writePixel_eq idx (frameWord r g b bri) s with ⟨a, _, he⟩ | ⟨_, he⟩
    · rw [he]
      exact write_wf _ _ h
    · rw [he]
      exact h
  | setAll r g b bri => exact fill_wf _ _ h
  | readWord idx => simpa [effect] using h
  | beginTransfer => exact h
  | nop => exact h
  | encode => exact h
  | wait => exact h
  | status => exact h

/-- Everything an offered word can do: it holds, it is performed, or it is answered as illegal. -/
theorem offer_cases (w : Command) (s : State) :
    (∃ i, decodeCommand w = .legal i ∧ needsIdle i = true ∧ s.busy = true ∧ offer w s = .next s) ∨
    (∃ i, decodeCommand w = .legal i ∧ (needsIdle i && s.busy) = false ∧
      offer w s = .next (respond .ok (answer i s) (effect i s))) ∨
    (decodeCommand w = .illOp ∧ offer w s = .next (respondIllegal .illOp s)) ∨
    (decodeCommand w = .illRsvd ∧ offer w s = .next (respondIllegal .illRsvd s)) := by
  unfold offer
  cases hd : decodeCommand w with
  | legal i =>
    cases hn : needsIdle i && s.busy with
    | true =>
      simp only [Bool.and_eq_true] at hn
      exact .inl ⟨i, rfl, hn.1, hn.2, exec_held hn.1 hn.2⟩
    | false => exact .inr (.inl ⟨i, rfl, hn, exec_performed hn⟩)
  | illOp => exact .inr (.inr (.inl ⟨rfl, rfl⟩))
  | illRsvd => exact .inr (.inr (.inr ⟨rfl, rfl⟩))

/-- Taking the next turn changes only the list of turns or the count of free turns. -/
theorem nextTurn_state (s : State) : ∃ ts n, (nextTurn s).2 = { s with turns := ts, tick := n } := by
  unfold nextTurn
  split
  · exact ⟨_, _, rfl⟩
  · exact ⟨_, _, rfl⟩

@[simp] theorem nextTurn_cfg (s : State) : (nextTurn s).2.cfg = s.cfg := by
  obtain ⟨ts, n, h⟩ := nextTurn_state s
  rw [h]
@[simp] theorem nextTurn_buf (s : State) : (nextTurn s).2.buf = s.buf := by
  obtain ⟨ts, n, h⟩ := nextTurn_state s
  rw [h]
@[simp] theorem nextTurn_busy (s : State) : (nextTurn s).2.busy = s.busy := by
  obtain ⟨ts, n, h⟩ := nextTurn_state s
  rw [h]
@[simp] theorem nextTurn_startPending (s : State) : (nextTurn s).2.startPending = s.startPending := by
  obtain ⟨ts, n, h⟩ := nextTurn_state s
  rw [h]
@[simp] theorem nextTurn_engActive (s : State) : (nextTurn s).2.engActive = s.engActive := by
  obtain ⟨ts, n, h⟩ := nextTurn_state s
  rw [h]
@[simp] theorem nextTurn_engPtr (s : State) : (nextTurn s).2.engPtr = s.engPtr := by
  obtain ⟨ts, n, h⟩ := nextTurn_state s
  rw [h]
@[simp] theorem nextTurn_engHung (s : State) : (nextTurn s).2.engHung = s.engHung := by
  obtain ⟨ts, n, h⟩ := nextTurn_state s
  rw [h]
@[simp] theorem nextTurn_wire (s : State) : (nextTurn s).2.wire = s.wire := by
  obtain ⟨ts, n, h⟩ := nextTurn_state s
  rw [h]
@[simp] theorem nextTurn_cmds (s : State) : (nextTurn s).2.cmds = s.cmds := by
  obtain ⟨ts, n, h⟩ := nextTurn_state s
  rw [h]
@[simp] theorem nextTurn_resps (s : State) : (nextTurn s).2.resps = s.resps := by
  obtain ⟨ts, n, h⟩ := nextTurn_state s
  rw [h]
@[simp] theorem nextTurn_violations (s : State) : (nextTurn s).2.violations = s.violations := by
  obtain ⟨ts, n, h⟩ := nextTurn_state s
  rw [h]
@[simp] theorem nextTurn_draws (s : State) : (nextTurn s).2.draws = s.draws := by
  obtain ⟨ts, n, h⟩ := nextTurn_state s
  rw [h]

/-- Everything a turn that answers a next state can do: an input from outside, a held or idle turn, a performed command, the
answer to an illegal word, or an engine step. -/
theorem turnStep_cases {t : Turn} {s u : State} (h : turnStep t s = .next u) :
    u = s ∨
    (∃ w, t = .issue w ∧ u = { s with cmds := s.cmds ++ [w] }) ∨
    (∃ w ws i, t = .host ∧ s.cmds = w :: ws ∧ decodeCommand w = .legal i ∧ (needsIdle i && s.busy) = false ∧
      u = respond .ok (answer i s) (effect i s)) ∨
    (∃ c, t = .host ∧ u = respondIllegal c s) ∨
    (t = .engine ∧ canAccept s = true ∧ u = engineAccept s) ∨
    (t = .engine ∧ canMove s = true ∧ u = engineMove s) ∨
    (t = .engine ∧ canDone s = true ∧ u = engineDone s) ∨
    (t = .hang ∧ canHang s = true ∧ u = engineHang s) ∨
    (t = .reset ∧ u = resetTogether s) ∨
    (t = .resetBlockOnly ∧ u = resetBlockAlone s) ∨
    (t = .strayDone ∧ u = strayDonePulse s) ∨
    (∃ a, t = .strayRead a ∧ u = strayDmaRead a s) := by
  cases t with
  | issue w =>
    cases h
    exact .inr (.inl ⟨w, rfl, rfl⟩)
  | host =>
    simp only [turnStep] at h
    split at h
    · cases h
    · unfold performHead at h
      split at h
      · cases h
        exact .inl rfl
      · rename_i w ws hc
        rcases offer_cases w s with ⟨i, _, _, _, ho⟩ | ⟨i, hd, hn, ho⟩ | ⟨_, ho⟩ | ⟨_, ho⟩ <;> rw [ho] at h <;> cases h
        · exact .inl rfl
        · exact .inr (.inr (.inl ⟨w, ws, i, rfl, hc, hd, hn, rfl⟩))
        · exact .inr (.inr (.inr (.inl ⟨_, rfl, rfl⟩)))
        · exact .inr (.inr (.inr (.inl ⟨_, rfl, rfl⟩)))
  | engine =>
    simp only [turnStep] at h
    split at h
    · cases h
    · cases h
      unfold engineStep
      split
      · rename_i ha
        exact .inr (.inr (.inr (.inr (.inl ⟨rfl, ha, rfl⟩))))
      · split
        · rename_i hm
          exact .inr (.inr (.inr (.inr (.inr (.inl ⟨rfl, hm, rfl⟩)))))
        · split
          · rename_i hd
            exact .inr (.inr (.inr (.inr (.inr (.inr (.inl ⟨rfl, hd, rfl⟩))))))
          · exact .inl rfl
  | hang =>
    simp only [turnStep] at h
    split at h
    · cases h
    · cases h
      unfold hangStep
      split
      · rename_i hh
        exact .inr (.inr (.inr (.inr (.inr (.inr (.inr (.inl ⟨rfl, hh, rfl⟩)))))))
      · exact .inl rfl
  | reset =>
    cases h
    simp
  | resetBlockOnly =>
    cases h
    simp
  | strayDone =>
    cases h
    simp
  | strayRead a =>
    cases h
    simp

/-- The head of the list of turns is the next turn. -/
theorem nextTurn_cons {s : State} {t : Turn} {ts : List Turn} (h : s.turns = t :: ts) :
    nextTurn s = (t, { s with turns := ts }) := by
  unfold nextTurn
  rw [h]

/-- A state with an enabled step is not stuck. -/
theorem stuck_of_engineEnabled {s : State} (h : engineEnabled s = true) : stuck s = false := by simp [stuck, h]

/-- A state whose head does not hold is not stuck. -/
theorem stuck_of_hostEnabled {s : State} (h : hostEnabled s = true) : stuck s = false := by simp [stuck, h]

/-- A host turn offers the head of the queue. -/
theorem turnStep_host {s : State} {w : Command} {ws : List Command} (hs : stuck s = false) (hc : s.cmds = w :: ws) :
    turnStep .host s = offer w s := by
  simp only [turnStep, performHead]
  rw [hs, hc]
  simp

/-- A host turn with an empty queue changes nothing. -/
theorem turnStep_host_idle {s : State} (hs : stuck s = false) (hc : s.cmds = []) : turnStep .host s = .next s := by
  simp only [turnStep, performHead]
  rw [hs, hc]
  simp

/-- A moved word lands at the end of the last frame. -/
theorem appendToLastFrame_concat (fs : List (List Word)) (f : List Word) (w : Word) :
    appendToLastFrame w (fs ++ [f]) = fs ++ [f ++ [w]] := by
  induction fs with
  | nil => rfl
  | cons g fs ih =>
    cases fs with
    | nil => rfl
    | cons k fs => simpa [appendToLastFrame] using ih

end Sys2Proof.Machine
end

