-- ==== Sys2Proof/Laws/Cycle.lean ====
section
/-! SUPPORT. What one clock edge of the cycle-level reference can do (70_reset_and_hazards.md R205 to R207). -/

namespace Sys2Proof.Machine

/-- `needsIdle` on the bits is the hold of the decoded word. -/
theorem needsIdleBits_eq (w : Command) : needsIdleBits w = wordNeedsIdle w := by
  have ho : (opField w).toNat < 16 := (opField w).isLt
  unfold needsIdleBits wordNeedsIdle decodeCommand
  by_cases hr : rsvdField w = 0#4
  · generalize opField w = o at ho
    rw [hr]
    revert o
    have : ∀ o : BitVec 4, ((o == 0x2#4 || o == 0x3#4 || o == 0x4#4 || o == 0x5#4) && (0#4 == 0#4)) =
        decide (2 ≤ o.toNat ∧ o.toNat ≤ 5) := by decide
    intro o _
    rw [this o]
    by_cases h8 : 8 ≤ o.toNat
    · simp [h8]
      omega
    · obtain h | h | h | h | h | h | h | h : o.toNat = 0 ∨ o.toNat = 1 ∨ o.toNat = 2 ∨ o.toNat = 3 ∨ o.toNat = 4 ∨
        o.toNat = 5 ∨ o.toNat = 6 ∨ o.toNat = 7 := by omega
      all_goals simp [h, needsIdle]
  · by_cases h8 : 8 ≤ (opField w).toNat <;> simp [hr, h8]

/-- A word that is ready in some cycle is performed with one response. -/
theorem acceptWord_of_ready {rst pending : Bool} {w : Command} {s : State} (h : cmdReady rst pending w s = true) :
    ∃ t r, offer w s = .next t ∧ t.resps = s.resps ++ [r] ∧
      acceptWord w s = some ({ t with resps := s.resps, cmds := s.cmds }, r) := by
  have hi : (wordNeedsIdle w && s.busy) = false := by
    simp only [cmdReady, needsIdleBits_eq, Bool.and_eq_true, Bool.not_eq_true'] at h
    exact h.2
  unfold acceptWord
  rcases offer_cases w s with ⟨i, hd, hn, hb, _⟩ | ⟨i, _, _, ho⟩ | ⟨_, ho⟩ | ⟨_, ho⟩
  · simp [wordNeedsIdle, hd, hn, hb] at hi
  · rw [ho]
    exact ⟨_, ⟨.ok, answer i s⟩, rfl, by simp [effect_frame], by simp [effect_frame]⟩
  · rw [ho]
    exact ⟨_, ⟨.illOp, 0#32⟩, rfl, by simp [respondIllegal], by simp [respondIllegal]⟩
  · rw [ho]
    exact ⟨_, ⟨.illRsvd, 0#32⟩, rfl, by simp [respondIllegal], by simp [respondIllegal]⟩

/-- No word is accepted in a reset cycle, nor while a response is pending. -/
theorem acceptsNow_eq_false {c : CycleState} {i : CycleIn} (h : i.rst = true ∨ rspPending c = true) :
    acceptsNow i c = false := by
  rcases h with h | h <;> simp [acceptsNow, cmdAccepted, cmdReady, h]

/-- A cycle that begins a transfer accepts a word. -/
theorem beginsNow_of_not_accepts {c : CycleState} {i : CycleIn} (h : acceptsNow i c = false) : beginsNow i c = false := by
  simp only [acceptsNow] at h
  simp [beginsNow, beginAcc, h]

/-- A reset edge. -/
theorem cycle_reset {c : CycleState} {i : CycleIn} (h : i.rst = true) :
    cycle c i = ⟨resetBlock (giveResponse i c), none, false, portRead i c, c.dmaReads + 1⟩ := by
  simp [cycle, h]

/-- An edge that accepts a word. -/
theorem cycle_accept {c : CycleState} {i : CycleIn} (h : acceptsNow i c = true) :
    ∃ t r, offer i.cmdWord c.block = .next t ∧ t.resps = c.block.resps ++ [r] ∧
      cycle c i = ⟨clearBusy (i.xferDone && !beginsNow i c) { t with resps := c.block.resps, cmds := c.block.cmds },
        some ⟨r, latency (opField i.cmdWord) - 1⟩, beginsNow i c, portRead i c, c.dmaReads + 1⟩ := by
  have hr : i.rst = false := by
    cases hr : i.rst
    · rfl
    · rw [acceptsNow_eq_false (.inl hr)] at h
      cases h
  have hc : cmdReady i.rst (rspPending c) i.cmdWord c.block = true := by
    simp only [acceptsNow, cmdAccepted, Bool.and_eq_true] at h
    exact h.2
  obtain ⟨t, r, h1, h2, h3⟩ := acceptWord_of_ready hc
  exact ⟨t, r, h1, h2, by simp [cycle, hr, h, h3]⟩

/-- An edge with neither a reset nor an accepted word. -/
theorem cycle_idle {c : CycleState} {i : CycleIn} (hr : i.rst = false) (h : acceptsNow i c = false) :
    cycle c i = ⟨clearBusy i.xferDone (giveResponse i c), holdResponse i c, false, portRead i c, c.dmaReads + 1⟩ := by
  simp [cycle, hr, h]

/-- Every edge registers the word the DMA port reads, and counts the read. -/
theorem cycle_dma (c : CycleState) (i : CycleIn) :
    (cycle c i).dmaReg = portRead i c ∧ (cycle c i).dmaReads = c.dmaReads + 1 := by
  unfold cycle
  split
  · exact ⟨rfl, rfl⟩
  · split <;> exact ⟨rfl, rfl⟩

/-- `LAT_DMA_READ` is 0 or 1. -/
theorem latencyDmaRead_cases : latencyDmaRead = 0 ∨ latencyDmaRead = 1 := by
  unfold latencyDmaRead
  split
  · exact .inr rfl
  · exact .inl rfl

/-- Clearing BUSY changes nothing else. -/
@[simp] theorem clearBusy_buf (b : Bool) (s : State) : (clearBusy b s).buf = s.buf := by
  unfold clearBusy
  split <;> rfl
@[simp] theorem clearBusy_cfg (b : Bool) (s : State) : (clearBusy b s).cfg = s.cfg := by
  unfold clearBusy
  split <;> rfl
@[simp] theorem clearBusy_resps (b : Bool) (s : State) : (clearBusy b s).resps = s.resps := by
  unfold clearBusy
  split <;> rfl

/-- Giving a response changes nothing else. -/
theorem giveResponse_eq (i : CycleIn) (c : CycleState) :
    giveResponse i c = { c.block with resps := (giveResponse i c).resps } := by
  unfold giveResponse
  split
  · split <;> rfl
  · rfl

end Sys2Proof.Machine
end

