-- ==== Sys2Proof/Laws/Encoding.lean ====
section
/-! SUPPORT. Words as numbers: a concatenation is a sum of shifted parts, so that facts about fields become linear
arithmetic. -/

namespace Sys2Proof

/-- A concatenation as a number. -/
theorem toNat_append_mul {n m : Nat} (x : BitVec n) (y : BitVec m) : (x ++ y).toNat = x.toNat * 2 ^ m + y.toNat := by
  rw [BitVec.toNat_append, Nat.shiftLeft_eq, Nat.mul_comm, ← Nat.two_pow_add_eq_or_of_lt y.isLt]

/-- A field as a number. -/
theorem toNat_field {n : Nat} (x : BitVec n) (lo len : Nat) : (x.extractLsb' lo len).toNat = x.toNat / 2 ^ lo % 2 ^ len := by
  rw [BitVec.extractLsb'_toNat, Nat.shiftRight_eq_div_pow]

/-- A command word as a number (30_encoding.md R70). -/
theorem packCommand_toNat (op : BitVec 4) (index : BitVec 24) (bri b g r : Byte) :
    (packCommand op index bri b g r).toNat =
      op.toNat * 2 ^ 60 + index.toNat * 2 ^ 32 + bri.toNat * 2 ^ 24 + b.toNat * 2 ^ 16 + g.toNat * 2 ^ 8 + r.toNat := by
  unfold packCommand
  iterate 6 rw [toNat_append_mul]
  simp only [BitVec.toNat_ofNat]
  omega

/-- A pixel word as a number (30_encoding.md R84). -/
theorem Machine.frameWord_toNat (r g b bri : Byte) :
    (Machine.frameWord r g b bri).toNat =
      7 * 2 ^ 29 + bri.toNat % 32 * 2 ^ 24 + b.toNat * 2 ^ 16 + g.toNat * 2 ^ 8 + r.toNat := by
  unfold Machine.frameWord
  iterate 4 rw [toNat_append_mul]
  simp only [BitVec.toNat_ofNat, toNat_field]
  omega

@[simp] theorem opField_pack (op : BitVec 4) (index : BitVec 24) (bri b g r : Byte) :
    opField (packCommand op index bri b g r) = op := by
  apply BitVec.eq_of_toNat_eq
  rw [opField, toNat_field, packCommand_toNat]
  omega

@[simp] theorem rsvdField_pack (op : BitVec 4) (index : BitVec 24) (bri b g r : Byte) :
    rsvdField (packCommand op index bri b g r) = 0#4 := by
  apply BitVec.eq_of_toNat_eq
  rw [rsvdField, toNat_field, packCommand_toNat]
  simp only [BitVec.toNat_ofNat]
  omega

@[simp] theorem indexField_pack (op : BitVec 4) (index : BitVec 24) (bri b g r : Byte) :
    indexField (packCommand op index bri b g r) = index := by
  apply BitVec.eq_of_toNat_eq
  rw [indexField, toNat_field, packCommand_toNat]
  omega

@[simp] theorem briField_pack (op : BitVec 4) (index : BitVec 24) (bri b g r : Byte) :
    briField (packCommand op index bri b g r) = bri := by
  apply BitVec.eq_of_toNat_eq
  rw [briField, toNat_field, packCommand_toNat]
  omega

@[simp] theorem blueField_pack (op : BitVec 4) (index : BitVec 24) (bri b g r : Byte) :
    blueField (packCommand op index bri b g r) = b := by
  apply BitVec.eq_of_toNat_eq
  rw [blueField, toNat_field, packCommand_toNat]
  omega

@[simp] theorem greenField_pack (op : BitVec 4) (index : BitVec 24) (bri b g r : Byte) :
    greenField (packCommand op index bri b g r) = g := by
  apply BitVec.eq_of_toNat_eq
  rw [greenField, toNat_field, packCommand_toNat]
  omega

@[simp] theorem redField_pack (op : BitVec 4) (index : BitVec 24) (bri b g r : Byte) :
    redField (packCommand op index bri b g r) = r := by
  apply BitVec.eq_of_toNat_eq
  rw [redField, toNat_field, packCommand_toNat]
  omega

/-- An index in the range of INDEX survives its packing (R73). -/
theorem packIndex_toInt {idx : Int} (h : indexInRange idx) : (packIndex idx).toInt = idx := by
  unfold packIndex
  rw [BitVec.toInt_ofInt, Int.bmod_def]
  obtain ⟨h1, h2⟩ := h
  split <;> omega

/-- The top byte of a word is what the opcode table's mask keeps. -/
theorem topByte_of_match {w : Command} {top : BitVec 8}
    (h : w &&& 0xFF00000000000000#64 = BitVec.ofNat 64 (top.toNat * 2 ^ 56)) : w.extractLsb' 56 8 = top := by
  have hk : (w &&& 0xFF00000000000000#64).extractLsb' 56 8 = w.extractLsb' 56 8 := by
    apply BitVec.eq_of_getLsbD_eq
    intro i hi
    interval_cases i <;> simp
  rw [← hk, h]
  apply BitVec.eq_of_toNat_eq
  rw [toNat_field, BitVec.toNat_ofNat]
  have := top.isLt
  omega

/-- A word that matches a row of the opcode table has the row's OP and RSVD = 0. -/
theorem fields_of_match {w : Command} {op : BitVec 4}
    (h : w &&& 0xFF00000000000000#64 = BitVec.ofNat 64 (op.toNat * 2 ^ 60)) : opField w = op ∧ rsvdField w = 0#4 := by
  have hlt := op.isLt
  have he : op.toNat * 16 % 2 ^ 8 * 2 ^ 56 = op.toNat * 2 ^ 60 := by omega
  have htop := topByte_of_match (w := w) (top := BitVec.ofNat 8 (op.toNat * 16)) (by rw [h, BitVec.toNat_ofNat, he])
  have hn := congrArg BitVec.toNat htop
  rw [toNat_field, BitVec.toNat_ofNat] at hn
  have hw := w.isLt
  constructor <;> apply BitVec.eq_of_toNat_eq
  · rw [opField, toNat_field]
    omega
  · rw [rsvdField, toNat_field, BitVec.toNat_ofNat]
    omega

/-- Bit `i` of a pixel word (30_encoding.md R84). -/
theorem Machine.getLsbD_frameWord (r g b bri : Byte) (i : Nat) :
    (Machine.frameWord r g b bri).getLsbD i =
      if i < 8 then r.getLsbD i
      else if i < 16 then g.getLsbD (i - 8)
      else if i < 24 then b.getLsbD (i - 16)
      else if i < 29 then bri.getLsbD (i - 24)
      else decide (i < 32) := by
  by_cases hi : i < 32
  · unfold Machine.frameWord
    iterate 4 rw [BitVec.getLsbD_append]
    interval_cases i <;> simp
  · rw [BitVec.getLsbD_of_ge _ _ (by omega)]
    rw [if_neg (by omega), if_neg (by omega), if_neg (by omega), if_neg (by omega)]
    simp [hi]

/-- Every pixel word has the marker 111 (30_encoding.md R84). -/
theorem Machine.frameWord_marker (r g b bri : Byte) : (Machine.frameWord r g b bri).toNat / 2 ^ 29 = 7 := by
  rw [Machine.frameWord_toNat]
  have hb := b.isLt
  have hg := g.isLt
  have hr := r.isLt
  omega

/-- The decoder on a word whose OP and RSVD are known. -/
theorem decodeCommand_eq {w : Command} {op rsvd : BitVec 4} (ho : opField w = op) (hr : rsvdField w = rsvd) :
    decodeCommand w =
      if 8 ≤ op.toNat then .illOp
      else if rsvd ≠ 0#4 then .illRsvd
      else match op.toNat with
        | 0 => .legal .nop
        | 1 => .legal (.encode (redField w) (greenField w) (blueField w) (briField w))
        | 2 => .legal (.setPixel (indexOf w) (redField w) (greenField w) (blueField w) (briField w))
        | 3 => .legal (.setAll (redField w) (greenField w) (blueField w) (briField w))
        | 4 => .legal .beginTransfer
        | 5 => .legal .wait
        | 6 => .legal .status
        | 7 => .legal (.readWord (indexOf w))
        | _ => .illOp := by
  subst ho hr
  rfl

end Sys2Proof
end

