-- ==== Sys2Proof/Laws/PerInstr.lean ====
section
/-! SUPPORT. Per-instruction statements. Family EncodingFields: the word of an instruction has the opcode the map gives it
(30_encoding.md R77) and RSVD = 0 (R72). -/

namespace Sys2Proof.Laws.EncodingFields

/-- The opcode map of R77. -/
def opcode : Instr → BitVec 4
  | .nop => 0x0#4
  | .encode _ _ _ _ => 0x1#4
  | .setPixel _ _ _ _ _ => 0x2#4
  | .setAll _ _ _ _ => 0x3#4
  | .beginTransfer => 0x4#4
  | .wait => 0x5#4
  | .status => 0x6#4
  | .readWord _ => 0x7#4

/-- The encoding carries the instruction's opcode and no reserved bit. -/
def Statement (i : Instr) : Prop :=
  opField (encodeCommand i) = opcode i ∧ rsvdField (encodeCommand i) = 0#4

theorem nop : Statement .nop := by simp [Statement, encodeCommand, opcode]

theorem encode (r g b bri : Byte) : Statement (.encode r g b bri) := by simp [Statement, encodeCommand, opcode]

theorem setPixel (idx : Int) (r g b bri : Byte) : Statement (.setPixel idx r g b bri) := by
  simp [Statement, encodeCommand, opcode]

theorem setAll (r g b bri : Byte) : Statement (.setAll r g b bri) := by simp [Statement, encodeCommand, opcode]

theorem beginTransfer : Statement .beginTransfer := by simp [Statement, encodeCommand, opcode]

theorem wait : Statement .wait := by simp [Statement, encodeCommand, opcode]

theorem status : Statement .status := by simp [Statement, encodeCommand, opcode]

theorem readWord (idx : Int) : Statement (.readWord idx) := by simp [Statement, encodeCommand, opcode]

end Sys2Proof.Laws.EncodingFields
end

