-- ==== Sys2Proof/Laws/Progress.lean ====
section
/-! SUPPORT. Progress under ENGINE_LIVE (42_transfer_sync.md R142): the engine's turn comes again and again, no state is
stuck, and every step keeps that. -/

namespace Sys2Proof.Machine

/-- With ENGINE_LIVE false the open turns are the free values. -/
theorem openTurn_of_not_live {c : Config} (h : c.engineLive = false) (n : Nat) : openTurn c n = Config.freeTurn n := by
  simp [openTurn, h]

/-- With ENGINE_LIVE true the engine has the turn where its count has run down. -/
theorem openTurn_engine {c : Config} (h : c.engineLive = true) {n : Nat} (hn : engineWait n = 0) :
    openTurn c n = .engine := by
  simp [openTurn, h, hn]

/-- The count to the engine's next turn runs down by one. -/
theorem engineWait_succ {n k : Nat} (h : engineWait n = k + 1) : engineWait (n + 1) = k := by
  simp [engineWait, h]

/-- The count to the engine's next turn runs down to 0. -/
theorem engineWait_eventually_zero (n : Nat) : ∃ m, n ≤ m ∧ engineWait m = 0 := by
  generalize h : engineWait n = k
  induction k generalizing n with
  | zero => exact ⟨n, le_refl n, h⟩
  | succ k ih =>
    obtain ⟨m, hm, h0⟩ := ih (n + 1) (engineWait_succ h)
    exact ⟨m, by omega, h0⟩

/-- With no turn listed, the next turn is the open turn. -/
theorem nextTurn_nil {s : State} (h : s.turns = []) :
    nextTurn s = (openTurn s.cfg s.tick, { s with tick := s.tick + 1 }) := by
  unfold nextTurn
  rw [h]

/-- A turn in a state that is not stuck answers a next state. -/
theorem turnStep_of_not_stuck {s : State} (h : stuck s = false) (t : Turn) : ∃ u, turnStep t s = .next u := by
  cases t with
  | host =>
    cases hc : s.cmds with
    | nil => exact ⟨s, turnStep_host_idle h hc⟩
    | cons w ws =>
      rw [turnStep_host h hc]
      rcases offer_cases w s with ⟨_, _, _, _, ho⟩ | ⟨_, _, _, ho⟩ | ⟨_, ho⟩ | ⟨_, ho⟩ <;> exact ⟨_, ho⟩
  | engine => exact ⟨_, by simp only [turnStep, h]; rfl⟩
  | hang => exact ⟨_, by simp only [turnStep, h]; rfl⟩
  | issue w => exact ⟨_, rfl⟩
  | reset => exact ⟨_, rfl⟩
  | resetBlockOnly => exact ⟨_, rfl⟩
  | strayDone => exact ⟨_, rfl⟩
  | strayRead a => exact ⟨_, rfl⟩

/-- An engine that does not hang has an enabled step while BUSY = 1. -/
theorem engineEnabled_of_liveEngine {s : State} (h : LiveEngine s) (hb : s.busy = true) : engineEnabled s = true := by
  obtain ⟨_, hh, hp, hpa⟩ := h
  cases ha : s.engActive with
  | false =>
    have hs : s.startPending = true := by simpa [ha] using hpa hb
    simp [engineEnabled, canAccept, hh, ha, hs]
  | true =>
    rcases Nat.lt_or_eq_of_le hp with hlt | heq
    · simp [engineEnabled, canMove, hh, ha, hlt]
    · simp [engineEnabled, canDone, hh, ha, heq]

/-- Under ENGINE_LIVE no state is stuck. -/
theorem stuck_of_liveEngine {s : State} (h : LiveEngine s) : stuck s = false := by
  cases hb : s.busy with
  | true => exact stuck_of_engineEnabled (engineEnabled_of_liveEngine h hb)
  | false =>
    cases hc : s.cmds with
    | nil => simp [stuck, ended, hc, hb]
    | cons w ws => exact stuck_of_hostEnabled (by simp [hostEnabled, hc, hb])

/-- Every turn keeps the engine alive. -/
theorem liveEngine_turnStep {t : Turn} {s u : State} (h : LiveEngine s) (hs : turnStep t s = .next u) : LiveEngine u := by
  obtain ⟨hl, hh, hp, hpa⟩ := h
  rcases turnStep_cases hs with rfl | ⟨w, _, rfl⟩ | ⟨w, ws, i, _, _, _, _, rfl⟩ | ⟨c, _, rfl⟩ | ⟨_, _, rfl⟩ | ⟨_, hm, rfl⟩ |
    ⟨_, _, rfl⟩ | ⟨_, hg, rfl⟩ | ⟨_, rfl⟩ | ⟨_, rfl⟩ | ⟨_, rfl⟩ | ⟨a, _, rfl⟩
  · exact ⟨hl, hh, hp, hpa⟩
  · exact ⟨hl, hh, hp, hpa⟩
  · by_cases hi : i = .beginTransfer
    · simp [LiveEngine, effect_frame, effect_busy, hl, hh, hp, hi]
    · simpa [LiveEngine, effect_frame, effect_busy, hl, hh, hp, hi] using hpa
  · exact ⟨hl, hh, hp, hpa⟩
  · exact ⟨hl, hh, Nat.zero_le _, fun _ => .inr rfl⟩
  · simp only [canMove, Bool.and_eq_true, decide_eq_true_eq] at hm
    refine ⟨by simpa [engineMove] using hl, by simpa [engineMove] using hh, ?_, fun _ => .inr ?_⟩
    · simpa [engineMove] using hm.2
    · simpa [engineMove] using hm.1.2
  · exact ⟨hl, hh, hp, fun hb => by cases hb⟩
  · simp [canHang, hl] at hg
  · exact ⟨hl, rfl, Nat.zero_le _, fun hb => by cases hb⟩
  · exact ⟨hl, hh, hp, fun hb => by cases hb⟩
  · exact ⟨hl, hh, hp, fun hb => by cases hb⟩
  · simpa [LiveEngine, strayDmaRead, recordViolation] using ⟨hl, hh, hp, hpa⟩

/-- Under ENGINE_LIVE the machine never stops. -/
theorem liveEngine_step {s : State} (h : LiveEngine s) : ∃ u, step s = .next u ∧ LiveEngine u := by
  have h' : LiveEngine (nextTurn s).2 := by simpa [LiveEngine] using h
  obtain ⟨u, hu⟩ := turnStep_of_not_stuck (stuck_of_liveEngine h') (nextTurn s).1
  exact ⟨u, hu, liveEngine_turnStep h' hu⟩

end Sys2Proof.Machine
end

