-- ==== Sys2Proof/Tests/Slice0.lean ====
section
/-! SUPPORT. Tests of single steps, their expected results taken from 95_test_vectors.md and the rules, and a witness for
the hypotheses of every statement that has some. -/

namespace Sys2Proof.Tests

open Sys2Proof Sys2Proof.Machine

/-- N = 4, so E = 1 and L = 6 (95_test_vectors.md 3.1). -/
def small : State := State.resetWith ⟨4, false⟩

/-- N = 1, so E = 1 and L = 3 (95_test_vectors.md 2.5). -/
def tiny : State := State.resetWith ⟨1, false⟩

/-- The next state of an outcome. -/
def after (o : Host.Outcome State Fault Refusal) : Option State :=
  match o with
  | .next s => some s
  | .fault _ => none
  | .refused _ => none

/-- The state after a command at `s`. -/
def did (i : Instr) (s : State) : Option State := after (exec i s)

/-- The state after one step with turn `t`. -/
def turned (t : Turn) (s : State) : Option State := after (step { s with turns := [t] })

/-! ## Well-formedness: each check refuses an ill-formed term -/

theorem test_wf_setPixel_low : Instr.wf (.setPixel (-8388609) 0#8 0#8 0#8 0#8) = false := by decide
theorem test_wf_setPixel_high : Instr.wf (.setPixel 8388608 0#8 0#8 0#8 0#8) = false := by decide
theorem test_wf_readWord_low : Instr.wf (.readWord (-8388609)) = false := by decide
theorem test_wf_readWord_high : Instr.wf (.readWord 8388608) = false := by decide
theorem test_wf_bounds : Instr.wf (.readWord (-8388608)) = true ∧ Instr.wf (.setPixel 8388607 0#8 0#8 0#8 0#8) = true := by
  decide
theorem test_config_bounds : Config.wf ⟨0, true⟩ = false ∧ Config.wf ⟨4194305, true⟩ = false ∧
    Config.wf ⟨1, true⟩ = true ∧ Config.wf ⟨4194304, true⟩ = true := by decide

/-! ## Decoding: words of 95_test_vectors.md, read by the layout of R70 -/

-- OP 0, the all-zero word, and OP 0 with ignored fields set (2.3).
theorem test_decode_nop : decodeTableWord 64 0x0000000000000000 = some .nop ∧
    decodeTableWord 64 0x00ABCDEF12345678 = some .nop := by decide
-- OP 1, INDEX ABCDEF ignored, BRI 0A, B 80, G FF, R 00 (2.1).
theorem test_decode_encode : decodeTableWord 64 0x10ABCDEF0A80FF00 = some (.encode 0#8 255#8 128#8 10#8) := by decide
-- OP 2, INDEX 00008F = 143 (1.6) and INDEX 800000 = -2^23 (2.2).
theorem test_decode_setPixel : decodeTableWord 64 0x2000008F0A8002FD = some (.setPixel 143 253#8 2#8 128#8 10#8) ∧
    decodeTableWord 64 0x2080000001010101 = some (.setPixel (-8388608) 1#8 1#8 1#8 1#8) := by decide
-- OP 3 (2.2).
theorem test_decode_setAll : decodeTableWord 64 0x300000001F0000FF = some (.setAll 255#8 0#8 0#8 31#8) := by decide
-- OP 4, 5, 6 (2.3).
theorem test_decode_sync : decodeTableWord 64 0x4000000000000000 = some .beginTransfer ∧
    decodeTableWord 64 0x5000000000000000 = some .wait ∧ decodeTableWord 64 0x6000000000000000 = some .status := by decide
-- OP 7, INDEX FFFFFF = -1 (2.2).
theorem test_decode_readWord : decodeTableWord 64 0x70FFFFFF00000000 = some (.readWord (-1)) := by decide
-- The illegal words of 2.4.
theorem test_decode_illegal : decodeCommand 0x8000000000000000#64 = .illOp ∧
    decodeCommand 0xF0FFFFFFFFFFFFFF#64 = .illOp ∧ decodeCommand 0x9F00000000000000#64 = .illOp ∧
    decodeCommand 0x0100000000000000#64 = .illRsvd ∧ decodeCommand 0x4800000000000000#64 = .illRsvd := by decide
-- The encoder on the words of 1.6 and 2.2.
theorem test_encode_words : encodeCommand (.setPixel (-1) 255#8 255#8 255#8 31#8) = 0x20FFFFFF1FFFFFFF#64 ∧
    encodeCommand (.readWord 147) = 0x7000009300000000#64 ∧
    encodeCommand (.encode 0#8 255#8 128#8 10#8) = 0x100000000A80FF00#64 := by decide

/-! ## FrameCodec (2.1) -/

theorem test_frameWord_masks : frameWord 1#8 2#8 3#8 32#8 = 0xE0030201#32 ∧ frameWord 1#8 2#8 3#8 255#8 = 0xFF030201#32 ∧
    frameWord 1#8 2#8 3#8 42#8 = 0xEA030201#32 := by decide
theorem test_frameWord_order : frameWord 0x12#8 0x34#8 0x56#8 31#8 = 0xFF563412#32 := by decide
theorem test_encode_while_busy : (did (.encode 0#8 255#8 128#8 10#8) { small with busy := true }).map (·.resps) =
    some [⟨.ok, 0xEA80FF00#32⟩] := by decide

/-! ## FrameBuffer (2.2, 3.1) -/

-- Index N-1 is the last pixel word; the end word behind it stays.
theorem test_setPixel_last : (did (.setPixel 3 0#8 0#8 255#8 1#8) small).map (fun t => (wordAt t 4, wordAt t 5)) =
    some (some 0xE1FF0000#32, some 0xFFFFFFFF#32) := by decide
-- Index N writes nothing and answers OK.
theorem test_setPixel_past_end : (did (.setPixel 4 255#8 255#8 255#8 31#8) small).map (fun t => (t.buf, t.resps)) =
    some ([], [⟨.ok, 0#32⟩]) := by decide
-- SETALL defines every pixel word and no sentinel.
theorem test_setAll_defines : (did (.setAll 255#8 0#8 0#8 31#8) small).map
    (fun t => ((List.range 7).map (wordAt t), t.busy)) =
    some ([some 0x00000000#32, some 0xFF0000FF#32, some 0xFF0000FF#32, some 0xFF0000FF#32, some 0xFF0000FF#32,
      some 0xFFFFFFFF#32, none], false) := by decide
theorem test_setAll_holds : did (.setAll 255#8 0#8 0#8 31#8) { small with busy := true } =
    some { small with busy := true } := by decide
-- Word L-1 is an end word; word L reads 0 with code OK.
theorem test_readWord_ends : (did (.readWord 5) small).map (·.resps) = some [⟨.ok, 0xFFFFFFFF#32⟩] ∧
    (did (.readWord 6) small).map (·.resps) = some [⟨.ok, 0x00000000#32⟩] := by decide
-- An undefined pixel word: a draw is made, and the command completes.
theorem test_readWord_undefined : (did (.readWord 1) small).map (fun t => (t.draws, t.resps.length, t.cmds)) =
    some (1, 1, []) := by decide

/-! ## TransferSynchronizer (2.3) -/

theorem test_begin_starts : (did .beginTransfer small).map (fun t => (t.busy, t.startPending, t.resps)) =
    some (true, true, [⟨.ok, 0#32⟩]) := by decide
theorem test_begin_holds : did .beginTransfer { small with busy := true } = some { small with busy := true } := by decide
theorem test_wait_idle : (did .wait small).map (·.resps) = some [⟨.ok, 0#32⟩] := by decide
theorem test_wait_holds : did .wait { small with busy := true } = some { small with busy := true } := by decide
theorem test_status_busy : (did .status { small with busy := true }).map (·.resps) = some [⟨.ok, 0x00000001#32⟩] := by decide
theorem test_status_idle : (did .status small).map (·.resps) = some [⟨.ok, 0x00000000#32⟩] := by decide
theorem test_nop_answers : (did .nop small).map (fun t => (t.resps, t.buf, t.busy)) = some ([⟨.ok, 0#32⟩], [], false) := by
  decide

/-! ## Engine steps, inputs and reset (2.3; R136 to R142, R190) -/

/-- A transfer started. -/
def started : State := { small with busy := true, startPending := true }

/-- A transfer whose words were all moved but the end word. -/
def moving : State :=
  { small with busy := true, engActive := true, engPtr := 5, wire := [[1#32, 2#32, 3#32, 4#32, 5#32]] }

/-- A transfer whose words were all moved. -/
def moved : State :=
  { small with busy := true, engActive := true, engPtr := 6, wire := [[1#32, 2#32, 3#32, 4#32, 5#32, 6#32]] }

/-- A hung engine with a WAIT at the head. -/
def hung : State :=
  { small with busy := true, startPending := true, engHung := true, cmds := [0x5000000000000000#64] }

theorem test_accept : (turned .engine started).map (fun t => (t.startPending, t.engActive, t.engPtr, t.wire)) =
    some (false, true, 0, [[]]) := by decide
theorem test_move : (turned .engine moving).map (fun t => (t.engPtr, t.wire)) =
    some (6, [[1#32, 2#32, 3#32, 4#32, 5#32, 0xFFFFFFFF#32]]) := by decide
theorem test_done : (turned .engine moved).map (fun t => (t.busy, t.engActive, t.wire.length)) = some (false, false, 1) := by
  decide
theorem test_hang : (turned .hang started).map (·.engHung) = some true ∧
    (turned .hang { started with cfg := ⟨4, true⟩ }).map (·.engHung) = some false := by decide
theorem test_stuck : turned .host hung = none ∧ turned .engine hung = none ∧ (turned .reset hung).isSome = true := by decide
theorem test_reset_turn : (turned .reset { moved with buf := [(1, 7#32)] }).map
    (fun t => (t.busy, t.engActive, t.engPtr, t.wire == [], isDefined t 1)) = some (false, false, 0, true, false) := by decide
theorem test_stray_done_idle : (turned .strayDone small).map (fun t => (t.busy, t.violations)) =
    some (false, [.doneWhileIdle]) := by decide
theorem test_stray_read : (turned (.strayRead 6#23) small).map (fun t => (t.draws, t.violations)) =
    some (1, [.readOutOfRange]) := by decide
theorem test_reset_alone : (turned .resetBlockOnly moved).map (fun t => (t.busy, t.engActive, t.violations)) =
    some (false, true, [.engineNotReset]) := by decide
theorem test_issue_queues : (turned (.issue 0x6000000000000000#64) small).map (·.cmds) = some [0x6000000000000000#64] := by
  decide
-- An illegal word is answered while BUSY = 1; a legal SET_PIXEL behind it would hold (3.3).
theorem test_illegal_while_busy : (turned .host { started with cmds := [0x2100000109090909#64] }).map
    (fun t => (t.resps, t.cmds)) = some ([⟨.illRsvd, 0#32⟩], []) := by decide
theorem test_held_head_stays : (turned .host { started with cmds := [0x2000000109090909#64] }).map
    (fun t => (t.resps, t.cmds)) = some ([], [0x2000000109090909#64]) := by decide
theorem test_first_instruction : (after (step (State.reset.withFetchWord 64 0x2000008F0A8002FD))).map
    (fun t => (wordAt t 144, t.resps)) = some (some 0xEA8002FD#32, [⟨.ok, 0#32⟩]) := by decide

/-! ## Parameters, ports, assembler (2.5; R54, R88, R89, R209) -/

theorem test_lengths : [1, 2, 63, 64, 65, 127, 128, 129, 144, 4194304].map (fun n => (endLen ⟨n, false⟩, bufLen ⟨n, false⟩)) =
    [(1, 3), (1, 4), (1, 65), (1, 66), (2, 68), (2, 130), (2, 131), (3, 133), (3, 148), (65536, 4259841)] := by decide
theorem test_bit_clocks : frameBitClocks ⟨144, false⟩ = 4736 := by decide
theorem test_frame_time : frameLasts 20000000 ⟨144, false⟩ (2368 / 10000000) := by
  norm_num [frameLasts, frameBitClocks, bufLen, endLen]
theorem test_word_bits : wordBits 0xFF0000FF#32 =
    List.replicate 8 true ++ List.replicate 16 false ++ List.replicate 8 true := by decide
theorem test_assemble_clamps : assemble (.setPix 16777221 255 0 0 31) = [0x20FFFFFF1F0000FF#64] ∧
    assemble (.setAll (-1) 256 0 32) = [0x30000000200000FF#64] := by decide
theorem test_assemble_text : assembleText [['s', 'E', 't', 'p', 'i', 'x', ' ', '-', '1', ',', '2', '5', '5', ',', ' ', '0', 'x',
    'F', 'f', ',', '2', '5', '5', ',', '3', '1', ' ', ';', 'n'], [';'], ['S', 'H', 'O', 'W']] =
    some [0x20FFFFFF1FFFFFFF#64, 0x4000000000000000#64, 0x5000000000000000#64] := by decide

/-! ## Cycle-level reference (R204 to R206) -/

/-- A cycle in which the host offers `w` and takes no response. -/
def offering (w : Command) : CycleIn := ⟨false, true, w, false, false, 0#23⟩

/-- N = 4 with a transfer in flight and no response pending. -/
def busyCycle : CycleState := ⟨started, none, false, 0#32, 0⟩

/-- A response that is offered. -/
def answering : CycleState := ⟨small, some ⟨⟨.ok, 0#32⟩, 0⟩, false, 0#32, 0⟩

-- An accepted BEGIN_TRANSFER: BUSY and the start pulse in the next cycle, its response pending.
theorem test_cycle_begin : (fun c => (c.block.busy, c.xferStart, c.pending.map (·.rsp), rspPending c))
    (cycle ⟨small, none, false, 0#32, 0⟩ (offering 0x4000000000000000#64)) = (true, true, some ⟨.ok, 0#32⟩, true) := by decide
-- BEGIN_TRANSFER offered in the cycle of xfer_done sees the old BUSY and is not accepted (R204).
theorem test_cycle_done_and_begin : (fun c => (c.block.busy, c.xferStart, c.pending))
    (cycle busyCycle ⟨false, true, 0x4000000000000000#64, false, true, 0#23⟩) = (false, false, none) := by decide
-- The response is held until rsp_ready, and nothing is accepted in between.
theorem test_cycle_response_held : (fun c => (rspValid c, c.block.resps))
    (cycle answering (offering 0x6000000000000000#64)) = (true, []) := by decide
theorem test_cycle_response_taken : (fun c => (rspPending c, c.block.resps))
    (cycle answering ⟨false, true, 0x6000000000000000#64, true, false, 0#23⟩) = (false, [⟨.ok, 0#32⟩]) := by decide
-- The DMA port's word of a cycle is registered at its edge (R207): an end word, index L - 1 = 5.
theorem test_cycle_dma : (cycle busyCycle ⟨false, false, 0#64, false, false, 5#23⟩).dmaReg = 0xFFFFFFFF#32 := by decide
-- A reset drops a command accepted and not yet answered (R190).
theorem test_cycle_reset_drops : (fun c => (rspPending c, c.block.resps))
    (cycle answering ⟨true, true, 0x6000000000000000#64, false, false, 0#23⟩) = (false, []) := by decide

/-! ## Witnesses: for each statement with hypotheses, a state and operands that meet them -/

theorem witness_EncodeCommand : 0x10ABCDEF0A80FF00#64 &&& 0xFF00000000000000#64 = 0x1000000000000000#64 ∧
    (0x110000000A80FF00#64).extractLsb' 60 4 = 1#4 ∧ (0x110000000A80FF00#64).extractLsb' 56 4 ≠ 0#4 := by decide
theorem witness_SetPixelCommand : 0x2000008F0A8002FD#64 &&& 0xFF00000000000000#64 = 0x2000000000000000#64 ∧
    (0x2100000001010101#64).extractLsb' 60 4 = 2#4 ∧ (0x2100000001010101#64).extractLsb' 56 4 ≠ 0#4 ∧
    started.busy = true ∧ small.busy = false ∧ pixelAddress small.cfg 0 = some 1 ∧ pixelAddress small.cfg 3 = some 4 ∧
    pixelAddress small.cfg 4 = none ∧ pixelAddress small.cfg (-1) = none := by decide
theorem witness_SetAllCommand : 0x30ABCDEF1F0000FF#64 &&& 0xFF00000000000000#64 = 0x3000000000000000#64 ∧
    (0x3F00000000000000#64).extractLsb' 60 4 = 3#4 ∧ (0x3F00000000000000#64).extractLsb' 56 4 ≠ 0#4 ∧
    started.busy = true ∧ small.busy = false := by decide
theorem witness_ReadWordCommand : 0x7000009300000000#64 &&& 0xFF00000000000000#64 = 0x7000000000000000#64 ∧
    (0x7F00000000000000#64).extractLsb' 60 4 = 7#4 ∧ (0x7F00000000000000#64).extractLsb' 56 4 ≠ 0#4 ∧
    5 < bufLen small.cfg ∧ wordAt small 5 = some 0xFFFFFFFF#32 ∧ 4 < bufLen small.cfg ∧ isDefined small 4 = false ∧
    (-1 : Int) < 0 ∧ (bufLen small.cfg : Int) ≤ 6 := by decide
theorem witness_BeginTransferCommand : 0x4000000000000000#64 &&& 0xFF00000000000000#64 = 0x4000000000000000#64 ∧
    (0x4800000000000000#64).extractLsb' 60 4 = 4#4 ∧ (0x4800000000000000#64).extractLsb' 56 4 ≠ 0#4 ∧
    started.busy = true ∧ small.busy = false := by decide
theorem witness_WaitCommand : 0x5000000000000001#64 &&& 0xFF00000000000000#64 = 0x5000000000000000#64 ∧
    (0x5100000000000000#64).extractLsb' 60 4 = 5#4 ∧ (0x5100000000000000#64).extractLsb' 56 4 ≠ 0#4 ∧
    started.busy = true ∧ small.busy = false := by decide
theorem witness_StatusCommand : 0x6000000000000001#64 &&& 0xFF00000000000000#64 = 0x6000000000000000#64 ∧
    (0x6100000000000000#64).extractLsb' 60 4 = 6#4 ∧ (0x6100000000000000#64).extractLsb' 56 4 ≠ 0#4 := by decide
theorem witness_StatusCommand_after_wait : ∃ t u, small.busy = false ∧ exec .wait small = .next t ∧ exec .status t = .next u :=
  ⟨_, _, rfl, rfl, rfl⟩
theorem witness_NopCommand : 0x00ABCDEF12345678#64 &&& 0xFF00000000000000#64 = 0x0000000000000000#64 ∧
    (0x0FFFFFFFFFFFFFFF#64).extractLsb' 60 4 = 0#4 ∧ (0x0FFFFFFFFFFFFFFF#64).extractLsb' 56 4 ≠ 0#4 := by decide
theorem witness_OutOfRangePixelIsNoOp : small.busy = false ∧ (-1 : Int) < 0 ∧ (small.cfg.stripLen : Int) ≤ 4 := by decide
theorem witness_NoCommandWritesSentinels : (∃ t, exec (.setAll 1#8 2#8 3#8 4#8) small = .next t) ∧
    pixelAddress small.cfg 3 = some 4 := ⟨⟨_, rfl⟩, by decide⟩

/-- A SET_ALL at the head, the host's turn next. -/
def settingAll : State := { small with cmds := [0x3000000000000000#64], turns := [.host] }

theorem witness_OnlyPixelCommandsAndResetWriteBuffer : ∃ t, step settingAll = .next t ∧ t.buf ≠ settingAll.buf :=
  ⟨_, rfl, by decide⟩
theorem witness_BufferIsFrozenWhileBusy : ∃ t, step { started with turns := [.engine] } = .next t ∧
    (nextTurn { started with turns := [.engine] }).1 ≠ .reset ∧
    (nextTurn { started with turns := [.engine] }).1 ≠ .resetBlockOnly ∧ started.busy = true :=
  ⟨_, rfl, by decide, by decide, rfl⟩

/-- The launch state of N = 1 with a program and turns. -/
theorem tiny_reachable : Reachable { tiny with cmds := [0x4000000000000000#64], turns := [.host] } :=
  Reachable.launch ⟨1, false⟩ _ _ (by decide)

theorem small_regions : RegionsIntact small := by
  refine ⟨by decide, fun i h1 h2 => ?_⟩
  have h1 : 4 < i := h1
  have h2 : i < 6 := h2
  have : i = 5 := by omega
  subst this
  decide

theorem witness_ReachableSentinelsIntact : ∃ s, Reachable s := ⟨_, tiny_reachable⟩
theorem witness_StepKeepsSentinels : ∃ s t, RegionsIntact s ∧ step s = .next t :=
  ⟨{ small with turns := [.host] }, _, small_regions, rfl⟩
theorem witness_StepKeepsWrittenWordsMarked : ∃ t, (WrittenWordsMarked settingAll ∧ OnlyPixelsWritten settingAll) ∧
    step settingAll = .next t :=
  ⟨_, ⟨fun p hp => by simp [settingAll, small, State.resetWith] at hp,
    fun p hp => by simp [settingAll, small, State.resetWith] at hp⟩, rfl⟩
theorem witness_StepKeepsMemoryCanonical : ∃ t, settingAll.buf.wf settingAll.cfg = true ∧ step settingAll = .next t :=
  ⟨_, rfl, rfl⟩
theorem witness_WritesAreIdempotent : Memory.wf ⟨4, false⟩ [(1, 5#32), (3, 6#32)] = true := by decide
theorem test_memory_not_canonical : Memory.wf ⟨4, false⟩ [(3, 5#32), (1, 6#32)] = false ∧
    Memory.wf ⟨4, false⟩ [(5, 0xFFFFFFFF#32)] = false := by decide
theorem witness_OnlyThreeEventsWriteBusy : (∃ s t, step s = .next t ∧ s.busy = false ∧ t.busy = true) ∧
    ∃ s t, step s = .next t ∧ s.busy = true ∧ t.busy = false :=
  ⟨⟨{ tiny with cmds := [0x4000000000000000#64], turns := [.host] }, _, rfl, rfl, rfl⟩,
    ⟨{ moved with turns := [.engine] }, _, rfl, rfl, rfl⟩⟩
theorem witness_EngineAcceptStep : nextTurn { started with turns := [.engine] } = (.engine, started) ∧
    started.engHung = false ∧ started.startPending = true ∧ started.engActive = false := ⟨rfl, rfl, rfl, rfl⟩
theorem witness_EngineMoveStep : nextTurn { moving with turns := [.engine] } = (.engine, moving) ∧
    moving.engHung = false ∧ moving.engActive = true ∧ moving.engPtr < bufLen moving.cfg ∧
    moving.wire = [] ++ [[1#32, 2#32, 3#32, 4#32, 5#32]] ∧ wordAt moving moving.engPtr = some 0xFFFFFFFF#32 ∧
    isDefined { moving with engPtr := 4 } 4 = false := ⟨rfl, rfl, rfl, by decide, rfl, by decide, by decide⟩
theorem witness_EngineDoneStep : nextTurn { moved with turns := [.engine] } = (.engine, moved) ∧ moved.engHung = false ∧
    moved.engActive = true ∧ moved.engPtr = bufLen moved.cfg := ⟨rfl, rfl, rfl, by decide⟩
theorem witness_EngineHangStep : nextTurn { started with turns := [.hang] } = (.hang, started) ∧
    started.engHung = false ∧ started.cfg.engineLive = false ∧ started.startPending = true ∧ small.startPending = false ∧
    small.engActive = false ∧ stuck small = false := ⟨rfl, rfl, rfl, rfl, rfl, rfl, by decide⟩
theorem witness_HungEngineKeepsBusy : ∃ t, hung.engHung = true ∧ hung.busy = true ∧
    step { hung with turns := [.issue 0#64] } = .next t := ⟨_, rfl, rfl, rfl⟩
theorem witness_SpuriousDoneIsIgnored : nextTurn { small with turns := [.strayDone] } = (.strayDone, small) ∧
    small.busy = false ∧ started.busy = true := ⟨rfl, rfl, rfl⟩
theorem witness_DmaReadOutOfRangeIsDraw : bufLen small.cfg ≤ (6#23).toNat ∧ (5#23).toNat < bufLen small.cfg ∧
    wordAt small (5#23).toNat = some 0xFFFFFFFF#32 ∧ (4#23).toNat < bufLen small.cfg ∧ isDefined small (4#23).toNat = false := by
  decide
theorem witness_DmaReadOutOfRangeIsDraw_cycle : (5#23).toNat < bufLen busyCycle.block.cfg ∧
    wordAt busyCycle.block (5#23).toNat = some 0xFFFFFFFF#32 ∧ bufLen busyCycle.block.cfg ≤ (6#23).toNat ∧
    isDefined busyCycle.block (4#23).toNat = false ∧ busyCycle.block.busy = true ∧ (offering 0#64).rst = false := by decide
theorem witness_NoCommandCancelsTransfer : ∃ t, started.busy = true ∧ exec .status started = .next t := ⟨_, rfl, rfl⟩

theorem small_contract : Contract small := fun _ =>
  ⟨by simp [Serialized, small, State.resetWith], ⟨by simp [small, State.resetWith], by simp [small, State.resetWith]⟩,
    by simp [FramesComplete, completedFrames, small, State.resetWith], by simp [HangsInTransfer, small, State.resetWith]⟩

theorem started_contract : Contract started := fun _ =>
  ⟨by simp [Serialized, started, small, State.resetWith],
    ⟨by simp [started, small, State.resetWith], by simp [started, small, State.resetWith]⟩,
    by simp [FramesComplete, completedFrames, started, small, State.resetWith],
    by simp [HangsInTransfer, started, small, State.resetWith]⟩

theorem hung_contract : Contract hung := fun _ =>
  ⟨by simp [Serialized, hung, small, State.resetWith],
    ⟨by simp [hung, small, State.resetWith], by simp [hung, small, State.resetWith]⟩,
    by simp [FramesComplete, completedFrames, hung, small, State.resetWith],
    by simp [HangsInTransfer, hung, small, State.resetWith]⟩

theorem witness_StepKeepsContract : ∃ s t, RegionsIntact s ∧ Contract s ∧ step s = .next t :=
  ⟨{ started with turns := [.engine] }, _, small_regions, started_contract, rfl⟩
theorem witness_ReachableSerialized : ∃ s, Reachable s ∧ s.violations = [] := ⟨_, tiny_reachable, rfl⟩
theorem witness_ReachableFramesComplete : ∃ s t, Reachable s ∧ step s = .next t ∧ Reachable t ∧ t.violations = [] :=
  ⟨_, _, tiny_reachable, rfl, Reachable.step _ _ tiny_reachable rfl, rfl⟩

/-- A started transfer of N = 1, with the engine's five turns. -/
def tinyStarted : State :=
  { tiny with busy := true, startPending := true, turns := [.engine, .engine, .engine, .engine, .engine] }

theorem witness_FrameIsBufferAtBegin : ∃ t u, tinyStarted.startPending = true ∧ tinyStarted.engActive = false ∧
    Draining tinyStarted t ∧ step t = .next u ∧ (nextTurn t).1 = .engine ∧ u.busy = false :=
  ⟨_, _, rfl, rfl,
    .step _ _ _ (.step _ _ _ (.step _ _ _ (.step _ _ _ (.start _ rfl rfl) rfl rfl rfl) rfl rfl rfl) rfl rfl rfl) rfl rfl rfl,
    rfl, rfl, rfl⟩
theorem witness_TransferCompletesInTurns : tinyStarted.busy = true ∧ tinyStarted.startPending = true ∧
    tinyStarted.engActive = false ∧ tinyStarted.engHung = false ∧
    tinyStarted.turns = List.replicate (bufLen tinyStarted.cfg + 2) Turn.engine ++ [] := by decide

/-- A started transfer of N = 1 under ENGINE_LIVE. -/
def liveStarted : State := { tinyStarted with cfg := ⟨1, true⟩ }

theorem witness_FairTurnsCompleteTransfer : RegionsIntact liveStarted ∧ Contract liveStarted ∧ liveStarted.violations = [] ∧
    liveStarted.cfg.engineLive = true ∧ liveStarted.turns = liveStarted.turns ++ [] ∧
    (∀ t ∈ liveStarted.turns, (∃ w, t = .issue w) ∨ t = .host ∨ t = .engine ∨ t = .hang) ∧
    bufLen liveStarted.cfg + 2 ≤ liveStarted.turns.count .engine := by
  refine ⟨⟨by decide, fun i h1 h2 => ?_⟩, fun _ => ⟨?_, ?_, ?_, ?_⟩, rfl, rfl, by decide, ?_, by decide⟩
  · have h1 : 1 < i := h1
    have h2 : i < 3 := h2
    have : i = 2 := by omega
    subst this
    decide
  · simp [Serialized, liveStarted, tinyStarted, tiny, State.resetWith]
  · exact ⟨by simp [liveStarted, tinyStarted, tiny, State.resetWith], by simp [liveStarted, tinyStarted, tiny, State.resetWith]⟩
  · simp [FramesComplete, completedFrames, liveStarted, tinyStarted, tiny, State.resetWith]
  · simp [HangsInTransfer, liveStarted, tinyStarted, tiny, State.resetWith]
  · simp [liveStarted, tinyStarted]

theorem witness_WaitIsCompletionBarrier : ∃ t, Contract small ∧ small.violations = [] ∧ exec .wait small = .next t ∧
    t.resps ≠ small.resps := ⟨_, small_contract, rfl, rfl, by decide⟩
theorem witness_EndOfRunIsIdle : Contract small ∧ small.violations = [] ∧ small.engHung = false ∧
    engineEnabled small = false ∧ engineEnabled started = true := ⟨small_contract, rfl, rfl, by decide, by decide⟩
theorem witness_StuckOnlyWhenHung : Contract hung ∧ hung.violations = [] ∧ stuck hung = true ∧ stuck started = false :=
  ⟨hung_contract, rfl, by decide, by decide⟩
theorem witness_OneResponsePerCommandInOrder : ∃ t, (nextTurn settingAll).1 = .host ∧ step settingAll = .next t :=
  ⟨_, rfl, rfl⟩
theorem witness_IllegalWordsAnsweredAtOnce : ∃ s u, nextTurn s = (.host, u) ∧ s.cmds = 0x9F00000000000000#64 :: [] ∧
    8 ≤ ((0x9F00000000000000#64).extractLsb' 60 4).toNat ∧ ((0x7F00000000000000#64).extractLsb' 60 4).toNat ≤ 7 ∧
    (0x7F00000000000000#64).extractLsb' 56 4 ≠ 0#4 :=
  ⟨{ started with cmds := [0x9F00000000000000#64], turns := [.host] }, _, rfl, rfl, by decide, by decide, by decide⟩
theorem witness_StepRunsHeadCommand : ∃ u, nextTurn settingAll = (.host, u) ∧ settingAll.cmds = 0x3000000000000000#64 :: [] ∧
    decodeCommand 0x3000000000000000#64 = .legal (.setAll 0#8 0#8 0#8 0#8) ∧ stuck u = false ∧
    nextTurn { small with turns := [.host] } = (.host, small) ∧ small.cmds = [] ∧ stuck small = false ∧ small.turns = [] :=
  ⟨_, rfl, rfl, by decide, by decide, rfl, rfl, by decide, rfl⟩
theorem witness_PlacedWordIsRun : State.reset.busy = false ∧
    decodeTableWord 64 0x3000000000000000 = some (.setAll 0#8 0#8 0#8 0#8) := by decide
theorem witness_ConfigurationNeverChanges : ∃ t, step settingAll = .next t := ⟨_, rfl⟩
theorem witness_ViolationsAreSticky : ∃ t, step { small with turns := [.reset], violations := [.strayDone] } = .next t ∧
    t.violations = [.strayDone] := ⟨_, rfl, rfl⟩
theorem witness_ResetValues : Config.wf ⟨4, false⟩ = true ∧ 1 ≤ 4 ∧ 4 < 5 ∧ 5 < bufLen ⟨4, false⟩ := by decide
theorem witness_ResetStepInitializes : nextTurn { moved with turns := [.reset] } = (.reset, moved) := rfl
theorem witness_DecodeEncodeRoundTrip : Instr.wf (.setPixel (-8388608) 1#8 2#8 3#8 255#8) = true := by decide
theorem witness_EncodeDecodeKeepsUsedFields :
    decodeCommand 0x10ABCDEF0A80FF00#64 = .legal (.encode 0#8 255#8 128#8 10#8) := by decide
theorem witness_UnusedFieldsAreIgnored :
    (0x00ABCDEF12345678#64).extractLsb' 56 8 = (0x0000000000000000#64).extractLsb' 56 8 ∧
    (0x30ABCDEF1F0000FF#64).extractLsb' 56 8 = (0x300000001F0000FF#64).extractLsb' 56 8 ∧
    (0x30ABCDEF1F0000FF#64).extractLsb' 60 4 = 3#4 ∧
    (0x30ABCDEF1F0000FF#64).extractLsb' 0 32 = (0x300000001F0000FF#64).extractLsb' 0 32 ∧
    (0x7000009300000000#64).extractLsb' 60 4 = 7#4 ∧
    (0x7000009300000000#64).extractLsb' 32 24 = (0x70000093FFFFFFFF#64).extractLsb' 32 24 := by decide
theorem witness_BufferLengthFitsPort : Config.wf ⟨65, true⟩ = true ∧ 65 ≤ 64 * 2 := by decide
theorem witness_FrameIsSentMsbFirst : [1#32, 2#32, 3#32].length = bufLen ⟨1, false⟩ ∧ [1#32, 2#32, 3#32][2]? = some 3#32 := by
  decide
theorem witness_ReadyMeansPerformed : cmdReady false false 0x3000000000000000#64 small = true ∧
    cmdReady false false 0x3000000000000000#64 started = false := by decide
theorem witness_ReadyMeansPerformed_handshake : acceptsNow (offering 0x3000000000000000#64) ⟨small, none, false, 0#32, 0⟩ = true ∧
    ([] : List CycleIn).length + 1 ≤ latency (opField 0x3000000000000000#64) ∧ rspPending answering = true ∧
    takenNow (offering 0#64) answering = false ∧ takenNow ⟨false, false, 0#64, true, false, 0#23⟩ answering = true :=
  ⟨by decide, Nat.succ_le_succ (Nat.zero_le _), by decide, by decide, by decide⟩
theorem witness_BusyRegisterEquation : (∃ t, offer 0x4000000000000000#64 tiny = .next t) ∧
    beginAcc false false true 0x4000000000000000#64 tiny = true ∧ started.busy = true := ⟨⟨_, rfl⟩, by decide, rfl⟩

/-- A started transfer under ENGINE_LIVE is one of an engine that does not hang. -/
theorem liveStarted_live : LiveEngine liveStarted := ⟨rfl, rfl, by decide, fun _ => .inl rfl⟩

/-- An execution that does not stop, step by step from `liveStarted`. -/
noncomputable def liveRun : Nat → { s : State // LiveEngine s }
  | 0 => ⟨liveStarted, liveStarted_live⟩
  | k + 1 => ⟨(liveEngine_step (liveRun k).2).choose, (liveEngine_step (liveRun k).2).choose_spec.2⟩

theorem witness_LiveEngineIsWeaklyFair : IsRun (fun k => (liveRun k).1) ∧ (liveRun 0).1.cfg.engineLive = true ∧
    Contract liveStarted ∧ liveStarted.violations = [] ∧ liveStarted.cfg.engineLive = true ∧ liveStarted.busy = true ∧
    liveStarted.startPending = true ∧ EngineAction.enabled .accept (liveRun 0).1 = true :=
  ⟨fun k => (liveEngine_step (liveRun k).2).choose_spec.1, rfl, witness_FairTurnsCompleteTransfer.2.1, rfl, rfl, rfl, rfl, rfl⟩

end Sys2Proof.Tests
end

section
/-! PROOFS. The parameters and the lengths they fix (00_scope.md R7 to R9; 10_state.md R33). -/

namespace Sys2Proof.Machine

/-- The range of `N` (R7). -/
theorem Config.wf_iff {c : Config} : c.wf = true ↔ 1 ≤ c.stripLen ∧ c.stripLen ≤ 4194304 :=
  decide_eq_true_iff

/-- `E` is the rounded-up quotient of `N` by 64 (R8): it is the lower adjoint of multiplication by 64. -/
theorem endLen_le_iff {c : Config} {e : Nat} : endLen c ≤ e ↔ c.stripLen ≤ 64 * e := by
  unfold endLen
  omega

/-- The greatest `N` has 65536 end words, so `L` is at most `1 + 4194304 + 65536` (R9). -/
theorem bufLen_le {c : Config} (h : c.wf = true) : bufLen c ≤ 4259841 := by
  obtain ⟨-, hmax⟩ := Config.wf_iff.mp h
  have hend : endLen c ≤ 65536 := endLen_le_iff.mpr hmax
  unfold bufLen
  omega

/-- No bit of `L` is lost in the 23 bits of `xfer_len` (R33). -/
theorem xferLen_toNat {c : Config} (h : c.wf = true) : (xferLen c).toNat = bufLen c := by
  have hlt : bufLen c < 2 ^ 23 := (bufLen_le h).trans_lt (by decide)
  rw [xferLen, BitVec.toNat_ofNat, Nat.mod_eq_of_lt hlt]

end Sys2Proof.Machine

open Sys2Proof.Machine in
/-- Settles O56: both facts about `E` are the two directions of `endLen_le_iff`, and `L` is bounded by its value at the
greatest `N`, below `2 ^ 23`. -/
theorem bufferLengthFitsPort : Obligations.BufferLengthFitsPort := fun _ hwf =>
  ⟨endLen_le_iff.mp le_rfl, fun _ => endLen_le_iff.mpr, rfl, bufLen_le hwf, xferLen_toNat hwf⟩
end

section
/-! PROOFS. The state's elements: the configuration that stands (10_state.md R20), the three events that write BUSY (R26),
and the reset values (R36) with the invariants they establish. -/

namespace Sys2Proof.Machine

/-! ## The configuration and BUSY over one turn -/

@[simp] theorem engineMove_cfg (s : State) : (engineMove s).cfg = s.cfg := dmaRead_cfg s s.engPtr

@[simp] theorem engineMove_busy (s : State) : (engineMove s).busy = s.busy := dmaRead_busy s s.engPtr

@[simp] theorem strayDmaRead_cfg (a : BitVec 23) (s : State) : (strayDmaRead a s).cfg = s.cfg := dmaRead_cfg s a.toNat

@[simp] theorem strayDmaRead_busy (a : BitVec 23) (s : State) : (strayDmaRead a s).busy = s.busy := dmaRead_busy s a.toNat

/-- The guard of DONE (R138, R142). -/
theorem canDone_iff {s : State} :
    canDone s = true ↔ s.engHung = false ∧ s.engActive = true ∧ s.engPtr = bufLen s.cfg := by
  simp [canDone, and_assoc]

/-- No turn changes the configuration (R20). -/
theorem turnStep_cfg {t : Turn} {s u : State} (h : turnStep t s = .next u) : u.cfg = s.cfg := by
  rcases turnStep_cases h with rfl | ⟨w, -, rfl⟩ | ⟨w, ws, i, -, -, -, -, rfl⟩ | ⟨c, -, rfl⟩ | ⟨-, -, rfl⟩ | ⟨-, -, rfl⟩ |
    ⟨-, -, rfl⟩ | ⟨-, -, rfl⟩ | ⟨-, rfl⟩ | ⟨-, rfl⟩ | ⟨-, rfl⟩ | ⟨a, -, rfl⟩
  · rfl
  · rfl
  · exact (effect_frame i s).1
  · rfl
  · exact engineAccept_cfg s
  · exact engineMove_cfg s
  · exact engineDone_cfg s
  · exact engineHang_cfg s
  · exact resetTogether_cfg s
  · exact resetBlockAlone_cfg s
  · exact strayDonePulse_cfg s
  · exact strayDmaRead_cfg a s

/-- The turn `t` in `s` is the host's, with a BEGIN_TRANSFER at the head of its queue (R131). -/
def OffersBegin (t : Turn) (s : State) : Prop :=
  t = .host ∧ ∃ w ws, s.cmds = w :: ws ∧ decodeCommand w = .legal .beginTransfer

/-- The turn `t` in `s` is one that clears BUSY: a reset (R190), or an `xfer_done`, be it the engine's DONE (R138) or a stray
one (R181). -/
def ClearsBusy (t : Turn) (s : State) : Prop :=
  t = .reset ∨ t = .resetBlockOnly ∨ t = .strayDone ∨ (t = .engine ∧ s.engActive = true ∧ s.engPtr = bufLen s.cfg)

/-- Everything a turn can do to BUSY: leave it, set it by BEGIN_TRANSFER, or clear it by a reset or a completion (R26). -/
theorem turnStep_busy {t : Turn} {s u : State} (h : turnStep t s = .next u) :
    u.busy = s.busy ∨ (u.busy = true ∧ OffersBegin t s) ∨ (u.busy = false ∧ ClearsBusy t s) := by
  rcases turnStep_cases h with rfl | ⟨w, -, rfl⟩ | ⟨w, ws, i, ht, hc, hd, -, rfl⟩ | ⟨c, -, rfl⟩ | ⟨-, -, rfl⟩ | ⟨-, -, rfl⟩ |
    ⟨ht, hdone, rfl⟩ | ⟨-, -, rfl⟩ | ⟨ht, rfl⟩ | ⟨ht, rfl⟩ | ⟨ht, rfl⟩ | ⟨a, -, rfl⟩
  · exact .inl rfl
  · exact .inl rfl
  · have hb := (effect_busy i s).1
    by_cases hi : i = .beginTransfer
    · rw [if_pos hi] at hb
      exact .inr (.inl ⟨hb, ht, w, ws, hc, hi ▸ hd⟩)
    · rw [if_neg hi] at hb
      exact .inl hb
  · exact .inl rfl
  · exact .inl rfl
  · exact .inl (engineMove_busy s)
  · obtain ⟨-, hactive, hptr⟩ := canDone_iff.mp hdone
    exact .inr (.inr ⟨rfl, .inr (.inr (.inr ⟨ht, hactive, hptr⟩))⟩)
  · exact .inl rfl
  · exact .inr (.inr ⟨rfl, .inl ht⟩)
  · exact .inr (.inr ⟨rfl, .inr (.inl ht)⟩)
  · exact .inr (.inr ⟨rfl, .inr (.inr (.inl ht))⟩)
  · exact .inl (strayDmaRead_busy a s)

/-- No step changes the configuration. -/
theorem step_cfg {s t : State} (h : step s = .next t) : t.cfg = s.cfg :=
  (turnStep_cfg h).trans (nextTurn_cfg s)

/-- Everything a step can do to BUSY, said of the state before the turn is taken. -/
theorem step_busy {s t : State} (h : step s = .next t) :
    t.busy = s.busy ∨ (t.busy = true ∧ OffersBegin (nextTurn s).1 s) ∨ (t.busy = false ∧ ClearsBusy (nextTurn s).1 s) := by
  simpa [OffersBegin, ClearsBusy] using turnStep_busy h

/-! ## The reset values and the invariants at reset -/

/-- After reset every word reads as reset leaves it: nothing is listed as written. -/
@[simp] theorem wordAt_resetWith (c : Config) (i : Nat) : wordAt (State.resetWith c) i = resetWord c i := rfl

/-- No pixel word is defined after reset (R36). -/
theorem isDefined_resetWith_pixel {c : Config} {i : Nat} (h1 : 1 ≤ i) (h2 : i ≤ c.stripLen) :
    isDefined (State.resetWith c) i = false := by
  rw [isDefined, wordAt_resetWith, resetWord_pixel h1 h2, Option.isSome_none]

/-- Reset establishes the sentinels (R117). -/
theorem regionsIntact_resetWith (c : Config) : RegionsIntact (State.resetWith c) :=
  ⟨rfl, fun _ => resetWord_end⟩

/-- Reset establishes the serialization of transfers (R143): BUSY, the start event and the engine are all idle. -/
theorem serialized_resetWith (c : Config) : Serialized (State.resetWith c) :=
  ⟨rfl, fun ⟨hpending, _⟩ => Bool.false_ne_true hpending⟩

/-- No frame is in progress at reset: the engine is idle and its pointer is 0. -/
theorem frameInProgress_resetWith (c : Config) : FrameInProgress (State.resetWith c) :=
  ⟨Nat.zero_le _, fun hactive => absurd hactive Bool.false_ne_true⟩

/-- No frame is completed at reset: the wire log is empty (R144). -/
theorem framesComplete_resetWith (c : Config) : FramesComplete (State.resetWith c) :=
  fun _ hf => absurd hf List.not_mem_nil

/-- The engine does not hang at reset. -/
theorem hangsInTransfer_resetWith (c : Config) : HangsInTransfer (State.resetWith c) :=
  fun hhung => absurd hhung Bool.false_ne_true

/-- Reset establishes the contract. -/
theorem contract_resetWith (c : Config) : Contract (State.resetWith c) := fun _ =>
  ⟨serialized_resetWith c, frameInProgress_resetWith c, framesComplete_resetWith c, hangsInTransfer_resetWith c⟩

end Sys2Proof.Machine

open Sys2Proof.Machine

/-- Settles O22: of the three things a step can do to BUSY (`step_busy`), only BEGIN_TRANSFER leaves it 1 where it was 0, and
only a reset or a completion leaves it 0 where it was 1. -/
theorem onlyThreeEventsWriteBusy : Obligations.OnlyThreeEventsWriteBusy := by
  intro s t h
  constructor
  · intro hs ht
    rcases step_busy h with hkeep | ⟨-, hbegin⟩ | ⟨hclear, -⟩
    · simp [hs, ht] at hkeep
    · exact hbegin
    · simp [ht] at hclear
  · intro hs ht
    rcases step_busy h with hkeep | ⟨hset, -⟩ | ⟨-, hclears⟩
    · simp [hs, ht] at hkeep
    · simp [ht] at hset
    · exact hclears

/-- Settles O45: every kind of turn keeps the configuration (`turnStep_cfg`), and `L` is a function of it. -/
theorem configurationNeverChanges : Obligations.ConfigurationNeverChanges := fun _ _ h =>
  ⟨step_cfg h, congrArg bufLen (step_cfg h)⟩

/-- Settles O47: the buffer reads as `resetWord` gives it in its three regions, and the other elements are the fields of
`State.resetWith`. -/
theorem resetValues : Obligations.ResetValues := fun c _ =>
  have ⟨hstart, hend⟩ := regionsIntact_resetWith c
  ⟨hstart, fun _ => isDefined_resetWith_pixel, hend, rfl, rfl, rfl, rfl, fun _ => rfl, rfl, rfl, rfl, rfl, rfl, rfl⟩

/-- Settles O49: nothing is listed as written at reset, the sentinels read as reset leaves them, and no transfer is in
flight. -/
theorem invariantsHoldAtReset : Obligations.InvariantsHoldAtReset := fun c =>
  ⟨regionsIntact_resetWith c, fun _ hp => absurd hp List.not_mem_nil, fun _ hp => absurd hp List.not_mem_nil,
    contract_resetWith c, rfl⟩

end

section
/-! PROOFS. The buffer as memory (20_memory.md): writes (R58), the serial order of a frame (R54), the DMA read port (R57, R60,
R207), and what a transfer reads from a buffer that BUSY = 1 freezes (R62, R63). -/

namespace Sys2Proof.Machine

/-! ## A write done twice -/

/-- Listing an index again as the same word lists nothing new. -/
theorem insert_insert_same (m : Memory) (i : Nat) (w : Word) : (m.insert i w).insert i w = m.insert i w := by
  induction m with
  | nil => simp [Memory.insert]
  | cons p m ih =>
    obtain ⟨j, v⟩ := p
    by_cases hlt : i < j
    · simp [Memory.insert, hlt]
    · by_cases heq : i = j
      · simp [Memory.insert, heq]
      · simp [Memory.insert, hlt, heq, ih]

/-- There is nothing to erase at an index that is not listed. -/
theorem erase_of_lookup_none {m : Memory} {i : Nat} (h : m.lookup i = none) : m.erase i = m := by
  induction m with
  | nil => rfl
  | cons p m ih =>
    obtain ⟨j, v⟩ := p
    by_cases hj : j = i
    · simp [Memory.lookup, hj] at h
    · simp only [Memory.lookup, hj, if_false] at h
      simp [Memory.erase, hj, ih h]

/-- In a canonical memory a write done twice is the write done once. -/
theorem write_write_same {c : Config} {m : Memory} (i : Nat) (w : Word) (h : m.wf c = true) :
    (m.write c i w).write c i w = m.write c i w := by
  by_cases hw : resetWord c i = some w
  · have hrising : m.rising = true := ((wf_iff c m).mp h).1
    simp only [Memory.write, hw, if_true]
    exact erase_of_lookup_none (lookup_erase_same i hrising)
  · simp only [Memory.write, hw, if_false]
    exact insert_insert_same m i w

/-! ## The serial order of a frame -/

@[simp] theorem wordBits_length (w : Word) : (wordBits w).length = 32 := by simp [wordBits]

/-- Bit `k` of a word on the line is its bit `31 - k` (R54). -/
theorem wordBits_getElem? (w : Word) {k : Nat} (hk : k < 32) : (wordBits w)[k]? = some (w.getLsbD (31 - k)) := by
  simp [wordBits, hk]

/-- The first word of a frame is sent first. -/
theorem frameBits_cons (w : Word) (f : List Word) : frameBits (w :: f) = wordBits w ++ frameBits f := List.flatMap_cons

/-- A frame is 32 bits a word on the line (R209). -/
theorem frameBits_length (f : List Word) : (frameBits f).length = 32 * f.length := by
  induction f with
  | nil => rfl
  | cons w f ih =>
    rw [frameBits_cons, List.length_append, wordBits_length, ih, List.length_cons]
    omega

/-- Word `i` of a frame stands at the bits from `32 * i` on, its bit 31 first (R54). -/
theorem frameBits_getElem? {f : List Word} {i k : Nat} {w : Word} (hw : f[i]? = some w) (hk : k < 32) :
    (frameBits f)[32 * i + k]? = some (w.getLsbD (31 - k)) := by
  induction f generalizing i with
  | nil => simp at hw
  | cons v f ih =>
    rw [frameBits_cons]
    cases i with
    | zero =>
      obtain rfl : v = w := by simpa using hw
      rw [List.getElem?_append_left (by simpa using hk)]
      simpa using wordBits_getElem? v hk
    | succ i =>
      have hpos : 32 * (i + 1) + k - (wordBits v).length = 32 * i + k := by
        rw [wordBits_length]
        omega
      rw [List.getElem?_append_right (by rw [wordBits_length]; omega), hpos]
      exact ih (by simpa using hw)

/-! ## The DMA read port -/

/-- Where a word is not defined it has no value. -/
theorem wordAt_of_not_isDefined {s : State} {i : Nat} (h : isDefined s i = false) : wordAt s i = none := by
  simpa [isDefined] using h

/-- Inside the buffer the port answers the defined word, and no state changes (R57). -/
theorem dmaRead_of_defined {s : State} {a : Nat} {v : Word} (ha : a < bufLen s.cfg) (hv : wordAt s a = some v) :
    dmaRead s a = (v, s) := by
  simp [dmaRead, ha, bufRead, hv]

/-- Where no word of the buffer is defined, outside it or inside, the port answers a draw (R57, R60). -/
theorem dmaRead_of_no_word {s : State} {a : Nat} (h : bufLen s.cfg ≤ a ∨ isDefined s a = false) :
    dmaRead s a = draw32 s := by
  unfold dmaRead
  split
  · rename_i ha
    have hnone : wordAt s a = none := wordAt_of_not_isDefined (h.resolve_left (Nat.not_le.mpr ha))
    simp [bufRead, hnone]
  · rfl

/-- The cycle-level port gives the defined word inside the buffer. -/
theorem portRead_of_defined {c : CycleState} {i : CycleIn} {v : Word} (ha : i.dmaRaddr.toNat < bufLen c.block.cfg)
    (hv : wordAt c.block i.dmaRaddr.toNat = some v) : portRead i c = v := by
  simp [portRead, ha, hv]

/-- The cycle-level port gives a free value where no word of the buffer is defined. -/
theorem portRead_of_no_word {c : CycleState} {i : CycleIn}
    (h : bufLen c.block.cfg ≤ i.dmaRaddr.toNat ∨ isDefined c.block i.dmaRaddr.toNat = false) :
    portRead i c = Config.dmaDraw c.dmaReads := by
  unfold portRead
  split
  · rename_i ha
    have hnone : wordAt c.block i.dmaRaddr.toNat = none := wordAt_of_not_isDefined (h.resolve_left (Nat.not_le.mpr ha))
    simp [hnone]
  · rfl

/-- `LAT_DMA_READ` cycles after its `dma_raddr`, `dma_rdata` is the word the port read for it (R207). -/
theorem dmaRdataNow_after_latency (c : CycleState) (i j : CycleIn) :
    (if latencyDmaRead = 0 then dmaRdataNow i c else dmaRdataNow j (cycle c i)) = portRead i c := by
  by_cases hlat : latencyDmaRead = 0
  · simp [dmaRdataNow, hlat]
  · simp [dmaRdataNow, hlat, cycle_dma]

/-! ## BUSY = 1 freezes the buffer -/

/-- A command that does not wait for BUSY = 0 writes no word of the buffer (R110). -/
theorem effect_buf_of_not_needsIdle {i : Instr} (s : State) (h : needsIdle i = false) : (effect i s).buf = s.buf := by
  cases i with
  | setPixel idx r g b bri => simp [needsIdle] at h
  | setAll r g b bri => simp [needsIdle] at h
  | readWord idx => exact readIndexed_buf idx s
  | beginTransfer => rfl
  | nop => rfl
  | encode => rfl
  | wait => rfl
  | status => rfl

/-- While BUSY = 1 no offered word writes the buffer. -/
theorem offer_frozen {w : Command} {s t : State} (hb : s.busy = true) (h : offer w s = .next t) :
    t.buf = s.buf ∧ t.cfg = s.cfg := by
  rcases offer_cases w s with ⟨i, -, -, -, ho⟩ | ⟨i, -, hn, ho⟩ | ⟨-, ho⟩ | ⟨-, ho⟩ <;> rw [ho] at h <;> cases h
  · exact ⟨rfl, rfl⟩
  · have hni : needsIdle i = false := by simpa [hb] using hn
    exact ⟨effect_buf_of_not_needsIdle s hni, (effect_frame i s).1⟩
  · exact ⟨rfl, rfl⟩
  · exact ⟨rfl, rfl⟩

/-- While BUSY = 1 no clock edge but a reset writes the buffer. -/
theorem cycle_frozen {c : CycleState} {i : CycleIn} (hb : c.block.busy = true) (hr : i.rst = false) :
    (cycle c i).block.buf = c.block.buf ∧ (cycle c i).block.cfg = c.block.cfg := by
  cases ha : acceptsNow i c with
  | true =>
    obtain ⟨t, r, ho, -, hc⟩ := cycle_accept ha
    simpa [hc] using offer_frozen hb ho
  | false =>
    rw [cycle_idle hr ha, giveResponse_eq]
    simp

/-! ## One transfer, from its start event to DONE -/

/-- The guard of ACCEPT (R136, R142). -/
theorem canAccept_iff {s : State} :
    canAccept s = true ↔ s.engHung = false ∧ s.startPending = true ∧ s.engActive = false := by
  simp [canAccept, and_assoc]

/-- The guard of MOVE (R137, R142). -/
theorem canMove_iff {s : State} :
    canMove s = true ↔ s.engHung = false ∧ s.engActive = true ∧ s.engPtr < bufLen s.cfg := by
  simp [canMove, and_assoc]

/-- What a transfer depends on is the same in `t` as in `s`: the buffer, its length, the start event, the engine's progress and
the wire log. -/
structure SameTransfer (s t : State) : Prop where
  buf : t.buf = s.buf
  cfg : t.cfg = s.cfg
  startPending : t.startPending = s.startPending
  engActive : t.engActive = s.engActive
  engPtr : t.engPtr = s.engPtr
  wire : t.wire = s.wire

/-- A command that does not wait for BUSY = 0 touches no transfer (R140). -/
theorem sameTransfer_effect {i : Instr} (s : State) (h : needsIdle i = false) : SameTransfer s (effect i s) := by
  obtain ⟨hcfg, hactive, hptr, -, hwire, -⟩ := effect_frame i s
  have hi : i ≠ .beginTransfer := fun hi => by simp [hi, needsIdle] at h
  have hpending := (effect_busy i s).2
  rw [if_neg hi] at hpending
  exact ⟨effect_buf_of_not_needsIdle s h, hcfg, hpending, hactive, hptr, hwire⟩

/-- Taking the next turn touches no transfer. -/
theorem sameTransfer_nextTurn (s : State) : SameTransfer s (nextTurn s).2 := by
  constructor <;> simp

/-- Everything a turn can do while BUSY stays 1 and no environment fault is recorded: touch no transfer, or be the engine's
ACCEPT or MOVE. -/
theorem turnStep_in_transfer {t : Turn} {s u : State} (h : turnStep t s = .next u) (hb : s.busy = true)
    (hub : u.busy = true) (huv : u.violations = []) :
    SameTransfer s u ∨ (canAccept s = true ∧ u = engineAccept s) ∨ (canMove s = true ∧ u = engineMove s) := by
  rcases turnStep_cases h with rfl | ⟨w, -, rfl⟩ | ⟨w, ws, i, -, -, -, hn, rfl⟩ | ⟨c, -, rfl⟩ | ⟨-, ha, rfl⟩ | ⟨-, hm, rfl⟩ |
    ⟨-, -, rfl⟩ | ⟨-, -, rfl⟩ | ⟨-, rfl⟩ | ⟨-, rfl⟩ | ⟨-, rfl⟩ | ⟨a, -, rfl⟩
  · exact .inl ⟨rfl, rfl, rfl, rfl, rfl, rfl⟩
  · exact .inl ⟨rfl, rfl, rfl, rfl, rfl, rfl⟩
  · have hni : needsIdle i = false := by simpa [hb] using hn
    obtain ⟨hbuf, hcfg, hpending, hactive, hptr, hwire⟩ := sameTransfer_effect s hni
    exact .inl ⟨hbuf, hcfg, hpending, hactive, hptr, hwire⟩
  · exact .inl ⟨rfl, rfl, rfl, rfl, rfl, rfl⟩
  · exact .inr (.inl ⟨ha, rfl⟩)
  · exact .inr (.inr ⟨hm, rfl⟩)
  · simp at hub
  · exact .inl ⟨rfl, rfl, rfl, rfl, rfl, rfl⟩
  · simp at hub
  · simp at hub
  · simp at hub
  · simp [strayDmaRead] at huv

/-- The transfer started in `s` waits in `t` for the engine to accept it. -/
def TransferPending (s t : State) : Prop := t.startPending = true ∧ t.engActive = false ∧ t.wire = s.wire

/-- The transfer started in `s` is being moved in `t`: one new frame, filled up to the pointer with the words of `s`. -/
def TransferMoving (s t : State) : Prop :=
  t.startPending = false ∧ t.engActive = true ∧
    ∃ f, t.wire = s.wire ++ [f] ∧ f.length = t.engPtr ∧ FrameAgrees s f

/-- The transfer started in `s` is still in flight in `t`, over the buffer of `s`. -/
structure TransferOf (s t : State) : Prop where
  buf : t.buf = s.buf
  cfg : t.cfg = s.cfg
  phase : TransferPending s t ∨ TransferMoving s t

/-- What touches no transfer leaves it in flight. -/
theorem TransferOf.of_sameTransfer {s t u : State} (h : TransferOf s t) (hu : SameTransfer t u) : TransferOf s u := by
  obtain ⟨hbuf, hcfg, hpending, hactive, hptr, hwire⟩ := hu
  refine ⟨hbuf.trans h.buf, hcfg.trans h.cfg, ?_⟩
  simpa only [TransferPending, TransferMoving, hpending, hactive, hptr, hwire] using h.phase

/-- The engine can accept only a transfer that is still pending, and then opens its empty frame. -/
theorem TransferOf.after_accept {s t : State} (h : TransferOf s t) (ha : canAccept t = true) :
    TransferOf s (engineAccept t) := by
  obtain ⟨-, -, hidle⟩ := canAccept_iff.mp ha
  rcases h.phase with ⟨-, -, hwire⟩ | ⟨-, hactive, -⟩
  · refine ⟨h.buf, h.cfg, .inr ⟨rfl, rfl, [], ?_, rfl, fun i w hi => ?_⟩⟩
    · rw [engineAccept_wire, hwire]
    · simp at hi
  · simp [hidle] at hactive

/-- A word behind a frame that agrees with the buffer keeps the agreement, if it is the buffer's where the buffer's is
defined. -/
theorem FrameAgrees.concat {s : State} {f : List Word} {w : Word} (h : FrameAgrees s f)
    (hw : ∀ v, wordAt s f.length = some v → w = v) : FrameAgrees s (f ++ [w]) := by
  intro i v hi hv
  rw [List.length_append, List.length_singleton] at hi
  rcases Nat.lt_succ_iff_lt_or_eq.mp hi with hlt | rfl
  · rw [List.getElem?_append_left hlt]
    exact h i v hlt hv
  · rw [List.getElem?_concat_length, hw v hv]

/-- MOVE moves the pointer and puts the port's word behind the last frame (R137). -/
theorem engineMove_wire {s : State} {fs : List (List Word)} {f : List Word} (h : s.wire = fs ++ [f]) :
    (engineMove s).wire = fs ++ [f ++ [(dmaRead s s.engPtr).1]] := by
  simp only [engineMove, h, appendToLastFrame_concat]

/-- A MOVE takes the next word of the frame from the buffer of `s`, where it is defined there. -/
theorem TransferOf.after_move {s t : State} (h : TransferOf s t) (hm : canMove t = true) : TransferOf s (engineMove t) := by
  obtain ⟨-, hactive, hlt⟩ := canMove_iff.mp hm
  rcases h.phase with ⟨-, hidle, -⟩ | ⟨hpending, -, f, hwire, hlen, hagrees⟩
  · simp [hidle] at hactive
  · have hword (v : Word) (hv : wordAt s f.length = some v) : (dmaRead t t.engPtr).1 = v := by
      rw [hlen, ← wordAt_congr h.buf h.cfg] at hv
      rw [dmaRead_of_defined hlt hv]
    refine ⟨(dmaRead_buf t _).trans h.buf, (dmaRead_cfg t _).trans h.cfg,
      .inr ⟨?_, ?_, f ++ [(dmaRead t t.engPtr).1], engineMove_wire hwire, ?_, hagrees.concat hword⟩⟩
    · exact (dmaRead_startPending t _).trans hpending
    · exact (dmaRead_engActive t _).trans hactive
    · rw [List.length_append, List.length_singleton, hlen]
      rfl

/-- A step that leaves BUSY = 1 and records no environment fault leaves the transfer in flight. -/
theorem TransferOf.after_step {s t u : State} (h : TransferOf s t) (hb : t.busy = true) (hs : step t = .next u)
    (hub : u.busy = true) (huv : u.violations = []) : TransferOf s u := by
  have h' := h.of_sameTransfer (sameTransfer_nextTurn t)
  rcases turnStep_in_transfer hs (by simpa using hb) hub huv with hsame | ⟨ha, rfl⟩ | ⟨hm, rfl⟩
  · exact h'.of_sameTransfer hsame
  · exact h'.after_accept ha
  · exact h'.after_move hm

/-- Draining keeps BUSY = 1 to its end. -/
theorem Draining.busy {s t : State} (h : Draining s t) : t.busy = true := by
  cases h with
  | start hb hv => exact hb
  | step t u h hs hb hv => exact hb

/-- All through a drain, the transfer that was pending at its start is in flight. -/
theorem Draining.transferOf {s t : State} (h : Draining s t) (hpending : s.startPending = true)
    (hidle : s.engActive = false) : TransferOf s t := by
  induction h with
  | start hb hv => exact ⟨rfl, rfl, .inl ⟨hpending, hidle, rfl⟩⟩
  | step t u h hs hb hv ih => exact ih.after_step h.busy hs hb hv

/-- An engine turn that clears BUSY is DONE (R138). -/
theorem engineTurn_clears_busy {s u : State} (h : turnStep .engine s = .next u) (hb : s.busy = true)
    (hub : u.busy = false) : canDone s = true ∧ u = engineDone s := by
  rcases turnStep_cases h with rfl | ⟨_, ⟨⟩, -⟩ | ⟨_, _, _, ⟨⟩, -⟩ | ⟨_, ⟨⟩, -⟩ | ⟨-, -, rfl⟩ | ⟨-, -, rfl⟩ | ⟨-, hd, rfl⟩ |
    ⟨⟨⟩, -⟩ | ⟨⟨⟩, -⟩ | ⟨⟨⟩, -⟩ | ⟨⟨⟩, -⟩ | ⟨_, ⟨⟩, -⟩
  · simp [hb] at hub
  · simp [hb] at hub
  · simp [hb] at hub
  · exact ⟨hd, rfl⟩

/-- DONE finds the frame complete: `L` words, those of the buffer in `s`. -/
theorem TransferOf.frame_of_canDone {s t : State} (h : TransferOf s t) (hd : canDone t = true) :
    ∃ f, t.wire = s.wire ++ [f] ∧ f.length = bufLen s.cfg ∧ FrameAgrees s f := by
  obtain ⟨-, hactive, hptr⟩ := canDone_iff.mp hd
  rcases h.phase with ⟨-, hidle, -⟩ | ⟨-, -, f, hwire, hlen, hagrees⟩
  · simp [hidle] at hactive
  · exact ⟨f, hwire, by rw [hlen, hptr, h.cfg], hagrees⟩

/-! ## WAIT as a barrier -/

/-- A WAIT that is answered finds BUSY = 0 (R132). -/
theorem idle_of_wait_answered {s t : State} (h : exec .wait s = .next t) (hr : t.resps ≠ s.resps) : s.busy = false := by
  cases hb : s.busy with
  | false => rfl
  | true =>
    rw [exec_held rfl hb] at h
    cases h
    exact absurd rfl hr

/-- With BUSY = 0, serialization leaves no start event and no active engine (R143). -/
theorem Serialized.idle {s : State} (h : Serialized s) (hb : s.busy = false) :
    s.startPending = false ∧ s.engActive = false := by
  have hor : (s.startPending || s.engActive) = false := h.1.symm.trans hb
  simpa using hor

/-- With an idle engine every frame of the wire log is completed. -/
theorem completedFrames_of_idle {s : State} (h : s.engActive = false) : completedFrames s = s.wire := by
  simp [completedFrames, h]

end Sys2Proof.Machine

open Sys2Proof.Machine

/-- Settles O34: BUSY = 1 freezes the buffer, so that every MOVE up to DONE reads the buffer of `s` (`Draining.transferOf`),
and the step that clears BUSY is a DONE, which finds the frame full. -/
theorem frameIsBufferAtBegin : Obligations.FrameIsBufferAtBegin := by
  intro s t u hpending hidle hdrain hstep hturn hub
  have htransfer := (hdrain.transferOf hpending hidle).of_sameTransfer (sameTransfer_nextTurn t)
  have hengine : turnStep .engine (nextTurn t).2 = .next u := hturn ▸ hstep
  obtain ⟨hd, rfl⟩ := engineTurn_clears_busy hengine (by simpa using hdrain.busy) hub
  obtain ⟨f, hwire, hlen, hagrees⟩ := htransfer.frame_of_canDone hd
  exact ⟨f, hwire, hlen, hagrees, htransfer.buf⟩

/-- Settles O29: the block's port and the cycle-level port answer the defined word inside the buffer and a free value
elsewhere, and an accepted command that could write the buffer holds while BUSY = 1. -/
theorem dmaReadOutOfRangeIsDraw : Obligations.DmaReadOutOfRangeIsDraw :=
  ⟨latencyDmaRead_cases,
    fun c i => ⟨dmaRdataNow_after_latency c i, fun _ => portRead_of_defined, portRead_of_no_word, (cycle_dma c i).2,
      cycle_frozen⟩,
    fun _ _ => ⟨fun ha => dmaRead_of_no_word (.inl ha), fun _ => dmaRead_of_defined,
      fun _ hu => dmaRead_of_no_word (.inr hu)⟩⟩

/-- Settles O37: the answered WAIT was not held, so BUSY = 0, and the contract then leaves the engine idle and every frame
complete. -/
theorem waitIsCompletionBarrier : Obligations.WaitIsCompletionBarrier := by
  intro s t hcontract hv hwait hr
  obtain ⟨hserialized, -, hcomplete, -⟩ := hcontract hv
  have hb := idle_of_wait_answered hwait hr
  obtain ⟨hpending, hactive⟩ := hserialized.idle hb
  rw [FramesComplete, completedFrames_of_idle hactive] at hcomplete
  exact ⟨hb, hpending, hactive, fun f hf => (hcomplete f hf).1⟩

/-- Settles O21: the three laws of a write to a canonical word list, said of the state's buffer. -/
theorem writesAreIdempotent : Obligations.WritesAreIdempotent := by
  intro s i v hwf
  refine ⟨?_, read_write_same i v hwf, fun j hj => read_write_other s.cfg s.buf v hj.symm⟩
  simp only [bufWrite, write_write_same i v hwf]

/-- Settles O57: by induction on the frame, word by word (`frameBits_length`, `frameBits_getElem?`). -/
theorem frameIsSentMsbFirst : Obligations.FrameIsSentMsbFirst := by
  intro c f hlen
  refine ⟨?_, fun _ _ _ hw hk => frameBits_getElem? hw hk⟩
  rw [frameBits_length, hlen, frameBitClocks]

end

section
/-! PROOFS. The decoder and the encoder (30_encoding.md R70 to R79, R89): a word decodes to an instruction exactly where OP,
RSVD and the fields that instruction uses say so; both directions of the encoding follow from that one equivalence. -/

namespace Sys2Proof

open Laws.EncodingFields (opcode Statement)

/-! ## The fields of a word -/

/-- OP and RSVD are the two halves of the top byte (R71, R72). -/
theorem topByte_eq_iff {v w : Command} :
    v.extractLsb' 56 8 = w.extractLsb' 56 8 ↔ opField v = opField w ∧ rsvdField v = rsvdField w := by
  simp only [← BitVec.toNat_inj, opField, rsvdField, toNat_field]
  omega

/-- BRI, B, G and R are the four bytes of `cmd[31:0]` (R74, R75). -/
theorem lowWord_eq_iff {v w : Command} :
    v.extractLsb' 0 32 = w.extractLsb' 0 32 ↔
      briField v = briField w ∧ blueField v = blueField w ∧ greenField v = greenField w ∧ redField v = redField w := by
  simp only [← BitVec.toNat_inj, briField, blueField, greenField, redField, toNat_field]
  omega

/-- The six fields are the whole word (R70). -/
theorem packCommand_fields {w : Command} {op : BitVec 4} (ho : opField w = op) (hr : rsvdField w = 0#4) :
    packCommand op (indexField w) (briField w) (blueField w) (greenField w) (redField w) = w := by
  subst ho
  have hw := w.isLt
  simp only [← BitVec.toNat_inj, rsvdField, toNat_field, BitVec.toNat_ofNat] at hr
  apply BitVec.eq_of_toNat_eq
  simp only [packCommand_toNat, opField, indexField, briField, blueField, greenField, redField, toNat_field]
  omega

/-- Every value of INDEX is in its range (R73). -/
theorem indexInRange_indexOf (w : Command) : indexInRange (indexOf w) :=
  ⟨(indexField w).le_toInt, (indexField w).toInt_lt⟩

/-- The two's complement of the index read is the field it was read from (R73). -/
@[simp] theorem packIndex_indexOf (w : Command) : packIndex (indexOf w) = indexField w := BitVec.ofInt_toInt

theorem opField_toNat (w : Command) : (opField w).toNat = w.toNat / 2 ^ 60 := by
  have hw := w.isLt
  rw [opField, toNat_field]
  omega

theorem rsvdField_toNat (w : Command) : (rsvdField w).toNat = w.toNat / 2 ^ 56 % 16 := toNat_field w 56 4

/-- A byte field is the low byte of the word shifted down to it. -/
theorem byteField_eq_ofNat (w : Command) (lo : Nat) : w.extractLsb' lo 8 = BitVec.ofNat 8 (w.toNat / 2 ^ lo) := by
  apply BitVec.eq_of_toNat_eq
  rw [toNat_field, BitVec.toNat_ofNat]

/-- `sint` of INDEX (R73): values from `2 ^ 23` up are negative. -/
theorem indexOf_eq (w : Command) :
    indexOf w = if w.toNat / 2 ^ 32 % 2 ^ 24 < 2 ^ 23 then ((w.toNat / 2 ^ 32 % 2 ^ 24 : Nat) : Int)
      else ((w.toNat / 2 ^ 32 % 2 ^ 24 : Nat) : Int) - 2 ^ 24 := by
  rw [indexOf, BitVec.toInt_eq_toNat_cond, indexField, toNat_field]
  split <;> split <;> omega

/-! ## What decoding to an instruction means -/

/-- The fields of `w` that the instruction uses hold its operands (R76, R77). -/
def CarriesOperands (w : Command) : Instr → Prop
  | .encode r g b bri => redField w = r ∧ greenField w = g ∧ blueField w = b ∧ briField w = bri
  | .setPixel idx r g b bri =>
    indexOf w = idx ∧ redField w = r ∧ greenField w = g ∧ blueField w = b ∧ briField w = bri
  | .setAll r g b bri => redField w = r ∧ greenField w = g ∧ blueField w = b ∧ briField w = bri
  | .readWord idx => indexOf w = idx
  | .nop | .beginTransfer | .wait | .status => True

/-- What R79 accepts: the word has the instruction's OP, no reserved bit, and its operands. -/
theorem decodeCommand_eq_legal_iff {w : Command} {i : Instr} :
    decodeCommand w = .legal i ↔ opField w = opcode i ∧ rsvdField w = 0#4 ∧ CarriesOperands w i := by
  constructor
  · intro h
    have op_eq {op : BitVec 4} (hop : (opField w).toNat = op.toNat) : opField w = op := BitVec.eq_of_toNat_eq hop
    unfold decodeCommand at h
    split at h
    case isTrue => cases h
    case isFalse =>
      split at h
      case isTrue => cases h
      case isFalse hr =>
        have hr := not_not.mp hr
        split at h <;> cases h
        all_goals exact ⟨op_eq ‹_›, hr, by simp [CarriesOperands]⟩
  · rintro ⟨ho, hr, hargs⟩
    rw [decodeCommand_eq ho hr]
    cases i with
    | nop | beginTransfer | wait | status => rfl
    | encode | setAll =>
      obtain ⟨rfl, rfl, rfl, rfl⟩ := hargs
      rfl
    | setPixel =>
      obtain ⟨rfl, rfl, rfl, rfl, rfl⟩ := hargs
      rfl
    | readWord =>
      obtain rfl := hargs
      rfl

/-! ## The encoder -/

/-- The word of an instruction has its opcode and no reserved bit. -/
theorem encodeCommand_opField_rsvdField : ∀ i : Instr, Statement i
  | .nop => Laws.EncodingFields.nop
  | .encode r g b bri => Laws.EncodingFields.encode r g b bri
  | .setPixel idx r g b bri => Laws.EncodingFields.setPixel idx r g b bri
  | .setAll r g b bri => Laws.EncodingFields.setAll r g b bri
  | .beginTransfer => Laws.EncodingFields.beginTransfer
  | .wait => Laws.EncodingFields.wait
  | .status => Laws.EncodingFields.status
  | .readWord idx => Laws.EncodingFields.readWord idx

/-- The word of a well-formed instruction carries its operands. -/
theorem carriesOperands_encodeCommand {i : Instr} (h : i.wf = true) : CarriesOperands (encodeCommand i) i := by
  cases i with
  | setPixel | readWord => simpa [CarriesOperands, encodeCommand, indexOf] using packIndex_toInt (of_decide_eq_true h)
  | _ => simp [CarriesOperands, encodeCommand]

/-- The assembler's index is a value of INDEX (R89 b). -/
theorem Machine.indexInRange_clampIndex (idx : Int) : indexInRange (Machine.clampIndex idx) := by
  unfold Machine.clampIndex
  split
  · assumption
  · decide

/-- A word has an outcome only through its decoding (R79). -/
theorem Machine.offer_congr {v w : Command} (h : decodeCommand v = decodeCommand w) (s : Machine.State) :
    Machine.offer v s = Machine.offer w s := by
  simp only [Machine.offer, h]

end Sys2Proof

open Sys2Proof Sys2Proof.Machine

/-- Settles O50: the encoding has the instruction's opcode, no reserved bit and its operands, which is what decoding to it
means. -/
theorem decodeEncodeRoundTrip : Obligations.DecodeEncodeRoundTrip := fun i hwf =>
  have ⟨hop, hrsvd⟩ := encodeCommand_opField_rsvdField i
  decodeCommand_eq_legal_iff.mpr ⟨hop, hrsvd, carriesOperands_encodeCommand hwf⟩

/-- Settles O51: the decoded operands are the fields of `w`, so that encoding them packs those fields again; an index read
from INDEX is in its range. -/
theorem encodeDecodeKeepsUsedFields : Obligations.EncodeDecodeKeepsUsedFields := by
  intro w i h
  obtain ⟨hop, hrsvd, hargs⟩ := decodeCommand_eq_legal_iff.mp h
  obtain ⟨hop', hrsvd'⟩ := encodeCommand_opField_rsvdField i
  refine ⟨?_, topByte_eq_iff.mpr ⟨hop'.trans hop.symm, hrsvd'.trans hrsvd.symm⟩, ?_, ?_, ?_⟩
  · cases i with
    | setPixel => exact decide_eq_true (hargs.1 ▸ indexInRange_indexOf w)
    | readWord => exact decide_eq_true (hargs ▸ indexInRange_indexOf w)
    | _ => rfl
  · rintro idx r g b bri rfl
    obtain ⟨rfl, rfl, rfl, rfl, rfl⟩ := hargs
    rw [encodeCommand, packIndex_indexOf]
    exact packCommand_fields hop hrsvd
  · rintro idx rfl
    obtain rfl := hargs
    change indexField _ = indexField w
    simp [encodeCommand]
  · rintro r g b bri (rfl | rfl) <;> obtain ⟨rfl, rfl, rfl, rfl⟩ := hargs <;>
      simp [lowWord_eq_iff, encodeCommand]

/-- Settles O52: each quotient of the word is the field the decoder reads; then both sides are the same chain, OP by OP. -/
theorem decodeFollowsOpcodeMap : Obligations.DecodeFollowsOpcodeMap := by
  intro w
  have hred : redField w = BitVec.ofNat 8 w.toNat := by rw [redField, byteField_eq_ofNat, pow_zero, Nat.div_one]
  have hrsvd : w.toNat / 2 ^ 56 % 16 ≠ 0 ↔ rsvdField w ≠ 0#4 := by
    rw [← rsvdField_toNat, ne_eq, ne_eq, ← BitVec.toNat_inj, BitVec.toNat_ofNat]
  simp only [hrsvd, ← opField_toNat, ← indexOf_eq, ← byteField_eq_ofNat, ← hred]
  unfold decodeCommand
  by_cases h8 : 8 ≤ (opField w).toNat
  · simp only [if_pos h8]
  by_cases hr : rsvdField w ≠ 0#4
  · simp only [if_neg h8, if_pos hr]
  simp only [if_neg h8, if_neg hr]
  generalize (opField w).toNat = op at h8
  have hlt : op < 8 := by omega
  interval_cases op <;> rfl

/-- Settles O53: with OP known and RSVD equal, the decoder's chain reads only the fields that are assumed equal. -/
theorem unusedFieldsAreIgnored : Obligations.UnusedFieldsAreIgnored := by
  intro v w s htop
  obtain ⟨hop, hrsvd⟩ := topByte_eq_iff.mp htop
  have hv {op} (ho : opField v = op) := decodeCommand_eq ho hrsvd
  have hw {op} (ho : opField v = op) := decodeCommand_eq (hop ▸ ho) (rfl : rsvdField w = _)
  refine ⟨fun h => offer_congr ?_ s, fun h hlow => offer_congr ?_ s, fun h hidx => offer_congr ?_ s⟩
  · rcases h with h | h | h | h <;> simp [hv h, hw h]
  · obtain ⟨hbri, hblue, hgreen, hred⟩ := lowWord_eq_iff.mp hlow
    rcases h with h | h <;> simp [hv h, hw h, hbri, hblue, hgreen, hred]
  · have hindex : indexOf v = indexOf w := congrArg BitVec.toInt hidx
    simp [hv h, hw h, hindex]

/-- Settles O55: the assembler encodes instructions whose index is clamped to the range of INDEX, so the round trip of O50
applies. -/
theorem assemblerPacksOperands : Obligations.AssemblerPacksOperands := by
  refine ⟨fun idx _ _ _ _ => ⟨_, rfl, decodeEncodeRoundTrip _ (decide_eq_true (indexInRange_clampIndex idx))⟩,
    fun _ _ _ _ => ⟨_, _, rfl, rfl, decodeEncodeRoundTrip _ rfl, decodeEncodeRoundTrip _ rfl⟩,
    fun idx => ⟨_, rfl, decodeEncodeRoundTrip _ (decide_eq_true (indexInRange_clampIndex idx))⟩,
    by decide, rfl, rfl, fun _ => rfl⟩

/-- Settles O54: eight closed words, evaluated. -/
theorem writtenOutWordsDecode : Obligations.WrittenOutWordsDecode := by
  unfold Obligations.WrittenOutWordsDecode
  decide

end

section
/-! PROOFS. FrameCodec (40_codec.md): the FrameWord bit by bit and field by field (R100 to R103), and ENCODE (R105) from
what holds of every command: the words that decode to it and the answer to its reserved bits. -/

namespace Sys2Proof.Machine

open Laws.EncodingFields (opcode)

/-! ## The FrameWord and its fields -/

/-- The marker is the bits from 29 up (R84). -/
theorem getLsbD_marker {i : Nat} (hi : i < 32) : (0xE0000000#32).getLsbD i = decide (29 ≤ i) := by
  interval_cases i <;> rfl

/-- The FrameWord as the sum of its shifted fields (R100): at each bit one field stands. The others are 0 there, by the shift
below their place and by `zero_above` above it. -/
theorem frameWord_eq_or (r g b bri : Byte) : frameWord r g b bri =
    0xE0000000#32 ||| ((bri.extractLsb' 0 5).setWidth 32 <<< 24) ||| (b.setWidth 32 <<< 16) |||
      (g.setWidth 32 <<< 8) ||| r.setWidth 32 := by
  apply BitVec.eq_of_getLsbD_eq
  intro i hi
  rw [getLsbD_frameWord]
  simp only [BitVec.getLsbD_or, getLsbD_marker hi, BitVec.getLsbD_shiftLeft, BitVec.getLsbD_setWidth,
    BitVec.getLsbD_extractLsb', hi]
  have zero_above (x : Byte) {k : Nat} (hk : 8 ≤ k) : x.getLsbD k = false := x.getLsbD_of_ge k hk
  split_ifs <;> grind only

/-- The FrameWord of a command word's four low bytes is its low half with the marker set (R100): each byte stands in the
FrameWord where it stood in the word. -/
theorem frameWord_of_command (w : Command) :
    frameWord (w.extractLsb' 0 8) (w.extractLsb' 8 8) (w.extractLsb' 16 8) (w.extractLsb' 24 8) =
      w.extractLsb' 0 32 ||| 0xE0000000#32 := by
  apply BitVec.eq_of_getLsbD_eq
  intro i hi
  rw [getLsbD_frameWord, BitVec.getLsbD_or, getLsbD_marker hi]
  simp only [BitVec.getLsbD_extractLsb']
  split_ifs <;> grind only

/-- R in bits [7:0] (R102). -/
theorem frameWord_red (r g b bri : Byte) : (frameWord r g b bri).extractLsb' 0 8 = r := by
  apply BitVec.eq_of_toNat_eq
  rw [toNat_field, frameWord_toNat]
  omega

/-- G in bits [15:8] (R102). -/
theorem frameWord_green (r g b bri : Byte) : (frameWord r g b bri).extractLsb' 8 8 = g := by
  apply BitVec.eq_of_toNat_eq
  rw [toNat_field, frameWord_toNat]
  omega

/-- B in bits [23:16] (R102). -/
theorem frameWord_blue (r g b bri : Byte) : (frameWord r g b bri).extractLsb' 16 8 = b := by
  apply BitVec.eq_of_toNat_eq
  rw [toNat_field, frameWord_toNat]
  omega

/-- The low five bits of the brightness in bits [28:24] (R101). -/
theorem frameWord_brightness (r g b bri : Byte) : (frameWord r g b bri).extractLsb' 24 5 = bri.extractLsb' 0 5 := by
  apply BitVec.eq_of_toNat_eq
  rw [toNat_field, frameWord_toNat, toNat_field]
  omega

/-- The marker in bits [31:29] is 111 (R103). -/
theorem frameWord_marker_field (r g b bri : Byte) : (frameWord r g b bri).extractLsb' 29 3 = 0b111#3 := by
  apply BitVec.eq_of_toNat_eq
  rw [toNat_field, frameWord_marker]
  rfl

/-- The start sentinel has no marker, so it is no FrameWord (R103). -/
theorem frameWord_ne_startSentinel (r g b bri : Byte) : frameWord r g b bri ≠ startSentinel := by
  intro h
  have hmarker := frameWord_marker_field r g b bri
  rw [h] at hmarker
  exact absurd hmarker (by decide)

/-- The mask 0x1F keeps the low five bits of the brightness. -/
theorem brightness_mask (bri : Byte) : (bri &&& 0x1F#8).extractLsb' 0 5 = bri.extractLsb' 0 5 := by
  apply BitVec.eq_of_toNat_eq
  rw [toNat_field, toNat_field, BitVec.toNat_and]
  have hmask : bri.toNat &&& 31 = bri.toNat % 2 ^ 5 := Nat.and_two_pow_sub_one_eq_mod bri.toNat 5
  simp only [BitVec.toNat_ofNat, Nat.reducePow, Nat.reduceMod, hmask]
  omega

/-- Only the low five bits of the brightness reach the FrameWord (R101). -/
theorem frameWord_mask (r g b bri : Byte) : frameWord r g b (bri &&& 0x1F#8) = frameWord r g b bri := by
  rw [frameWord, brightness_mask, frameWord]

/-! ## What holds of every command's words -/

/-- A word that matches a command's row of the opcode table and carries its operands decodes to it (R77). -/
theorem decodeCommand_of_match {w : Command} {i : Instr} {op : BitVec 4} (hi : opcode i = op)
    (h : w &&& 0xFF00000000000000#64 = BitVec.ofNat 64 (op.toNat * 2 ^ 60)) (hargs : CarriesOperands w i) :
    decodeCommand w = .legal i :=
  have ⟨hop, hrsvd⟩ := fields_of_match h
  decodeCommand_eq_legal_iff.mpr ⟨hop.trans hi.symm, hrsvd, hargs⟩

/-- A reserved bit under OP 0 to 7 is answered ILL_RSVD, with data 0 and no other effect (60_exceptions.md R172). -/
theorem offer_of_reserved {w : Command} {op : BitVec 4} (s : State) (hop : opField w = op) (h8 : op.toNat < 8)
    (hrsvd : rsvdField w ≠ 0#4) : offer w s = .next (respondIllegal .illRsvd s) := by
  have hd : decodeCommand w = .illRsvd := by rw [decodeCommand_eq hop rfl, if_neg (Nat.not_le.mpr h8), if_pos hrsvd]
  rw [offer, hd]

end Sys2Proof.Machine

open Sys2Proof Sys2Proof.Machine

/-- Settles O1: both forms, bit by bit (`frameWord_eq_or`, `frameWord_of_command`). -/
theorem encodeIsShiftedFields : Obligations.EncodeIsShiftedFields := ⟨frameWord_eq_or, frameWord_of_command⟩

/-- Settles O2: a brightness reaches a command's answer and effect (`exec_eq`) only in the FrameWord, which masks it. -/
theorem encodeMasksBrightness : Obligations.EncodeMasksBrightness := by
  intro r g b bri
  refine ⟨frameWord_brightness r g b bri, (frameWord_mask r g b bri).symm, fun idx s => ⟨?_, ?_, ?_⟩⟩ <;>
    simp [exec_eq, needsIdle, answer, effect, frameWord_mask]

/-- Settles O3: the three color fields of the FrameWord, as numbers. -/
theorem encodeKeepsChannels : Obligations.EncodeKeepsChannels := fun r g b bri =>
  ⟨frameWord_red r g b bri, frameWord_green r g b bri, frameWord_blue r g b bri⟩

/-- Settles O4: the marker is 111 in every FrameWord, and 000 in the start sentinel; the end sentinel is evaluated. -/
theorem encodeMarksEveryWord : Obligations.EncodeMarksEveryWord :=
  ⟨fun r g b bri => ⟨frameWord_marker_field r g b bri, frameWord_ne_startSentinel r g b bri⟩, by decide⟩

/-- Settles O5: ENCODE has OP 1 in the opcode map, its reserved bits are answered as every command's are, and it never needs
BUSY = 0. (The name stands under `FrameCodec`, apart from the encoder `Sys2Proof.encodeCommand`.) -/
theorem FrameCodec.encodeCommand : Obligations.EncodeCommand := by
  refine ⟨fun w h => ?_, fun w s hop hrsvd => ?_, fun r g b bri s => ?_⟩
  · exact decodeCommand_of_match (op := 1#4) rfl h ⟨rfl, rfl, rfl, rfl⟩
  · exact offer_of_reserved s hop (by decide) hrsvd
  · exact exec_performed rfl

end

section
/-! PROOFS. The FrameBuffer (41_framebuffer.md): what one step can do to the buffer (R116), from which its freezing (R110), its
sentinels (R112, R117) and its marks (R119) follow; and the commands SET_PIXEL, SET_ALL and READ_WORD (R111 to R115, R118). -/

namespace Sys2Proof.Machine

/-! ## What a command and a step can do to the buffer -/

/-- The commands that write the buffer (R116). -/
inductive PixelCommand : Instr → Prop where
  | setPixel (idx : Int) (r g b bri : Byte) : PixelCommand (.setPixel idx r g b bri)
  | setAll (r g b bri : Byte) : PixelCommand (.setAll r g b bri)

/-- The commands that write the buffer hold while BUSY = 1 (R110). -/
theorem PixelCommand.needsIdle {i : Instr} (h : PixelCommand i) : needsIdle i = true := by
  cases h <;> rfl

/-- A command that is no pixel command leaves the list of written words. -/
theorem effect_buf (i : Instr) (s : State) : (effect i s).buf = s.buf ∨ PixelCommand i := by
  cases i with
  | setPixel idx r g b bri => exact .inr (.setPixel idx r g b bri)
  | setAll r g b bri => exact .inr (.setAll r g b bri)
  | readWord idx => exact .inl (readIndexed_buf idx s)
  | nop | encode | beginTransfer | wait | status => exact .inl rfl

/-- The turn `t` in `s` is the host's, with BUSY = 0 and the pixel command `i` at the head of its queue. -/
def OffersPixelCommand (t : Turn) (s : State) (i : Instr) : Prop :=
  t = .host ∧ s.busy = false ∧ PixelCommand i ∧ ∃ w ws, s.cmds = w :: ws ∧ decodeCommand w = .legal i

/-- Everything a turn can do to the buffer: leave it, empty it by a reset, or write it by a pixel command (R116). -/
theorem turnStep_buf {t : Turn} {s u : State} (h : turnStep t s = .next u) :
    u.buf = s.buf ∨ (u.buf = [] ∧ (t = .reset ∨ t = .resetBlockOnly)) ∨
    (∃ i, OffersPixelCommand t s i ∧ u.buf = (effect i s).buf) := by
  rcases turnStep_cases h with rfl | ⟨w, -, rfl⟩ | ⟨w, ws, i, ht, hc, hd, hn, rfl⟩ | ⟨c, -, rfl⟩ | ⟨-, -, rfl⟩ | ⟨-, -, rfl⟩ |
    ⟨-, -, rfl⟩ | ⟨-, -, rfl⟩ | ⟨ht, rfl⟩ | ⟨ht, rfl⟩ | ⟨-, rfl⟩ | ⟨a, -, rfl⟩
  · exact .inl rfl
  · exact .inl rfl
  · rcases effect_buf i s with hbuf | hi
    · exact .inl hbuf
    · have hidle : s.busy = false := by simpa [hi.needsIdle] using hn
      exact .inr (.inr ⟨i, ⟨ht, hidle, hi, w, ws, hc, hd⟩, rfl⟩)
  · exact .inl rfl
  · exact .inl rfl
  · exact .inl (dmaRead_buf s s.engPtr)
  · exact .inl rfl
  · exact .inl rfl
  · exact .inr (.inl ⟨rfl, .inl ht⟩)
  · exact .inr (.inl ⟨rfl, .inr ht⟩)
  · exact .inl rfl
  · exact .inl (dmaRead_buf s a.toNat)

/-- The buffer after a turn, word by word: as before, as reset leaves it, or a FrameWord at a pixel index. -/
theorem turnStep_wordAt {t : Turn} {s u : State} (h : turnStep t s = .next u) (j : Nat) :
    wordAt u j = wordAt s j ∨ wordAt u j = resetWord s.cfg j ∨
    (1 ≤ j ∧ j ≤ s.cfg.stripLen ∧ ∃ r g b bri, wordAt u j = some (frameWord r g b bri)) := by
  have hcfg := turnStep_cfg h
  rcases turnStep_buf h with hbuf | ⟨hbuf, -⟩ | ⟨i, -, hbuf⟩
  · exact .inl (wordAt_congr hbuf hcfg j)
  · refine .inr (.inl ?_)
    rw [wordAt, hbuf, hcfg]
    rfl
  · rw [wordAt_congr hbuf (hcfg.trans (effect_frame i s).1.symm)]
    exact (wordAt_effect i s j).imp_right .inr

/-- The list of written words after a turn holds nothing new but FrameWords at pixel indices. -/
theorem turnStep_mem {t : Turn} {s u : State} (h : turnStep t s = .next u) {p : Nat × Word} (hp : p ∈ u.buf) :
    p ∈ s.buf ∨ (1 ≤ p.1 ∧ p.1 ≤ s.cfg.stripLen ∧ ∃ r g b bri, p.2 = frameWord r g b bri) := by
  rcases turnStep_buf h with hbuf | ⟨hbuf, -⟩ | ⟨i, -, hbuf⟩ <;> rw [hbuf] at hp
  · exact .inl hp
  · exact absurd hp List.not_mem_nil
  · exact mem_effect hp

/-- Everything a step can do to the buffer, said of the state before the turn is taken. -/
theorem step_buf {s t : State} (h : step s = .next t) :
    t.buf = s.buf ∨ (nextTurn s).1 = .reset ∨ (nextTurn s).1 = .resetBlockOnly ∨
    (∃ i, OffersPixelCommand (nextTurn s).1 s i) := by
  rcases turnStep_buf h with hbuf | ⟨-, hreset⟩ | ⟨i, hoffer, -⟩
  · exact .inl (hbuf.trans (nextTurn_buf s))
  · exact .inr (hreset.imp_right .inl)
  · exact .inr (.inr (.inr ⟨i, by simpa [OffersPixelCommand] using hoffer⟩))

/-! ## The sentinel regions -/

/-- The indices of the start word and the end words (10_state.md R22, R23). -/
def SentinelIndex (c : Config) (j : Nat) : Prop := j = 0 ∨ (c.stripLen < j ∧ j < bufLen c)

/-- A sentinel index is no pixel index. -/
theorem SentinelIndex.not_pixel {c : Config} {j : Nat} (h : SentinelIndex c j) : ¬(1 ≤ j ∧ j ≤ c.stripLen) := by
  rcases h with rfl | ⟨hlt, -⟩ <;> omega

/-- The regions are intact where each sentinel word reads as reset leaves it. -/
theorem regionsIntact_iff {s : State} :
    RegionsIntact s ↔ ∀ j, SentinelIndex s.cfg j → wordAt s j = resetWord s.cfg j := by
  constructor
  · rintro ⟨hstart, hend⟩ j (rfl | ⟨h1, h2⟩)
    · exact hstart
    · rw [hend j h1 h2, resetWord_end h1 h2]
      rfl
  · intro h
    exact ⟨h 0 (.inl rfl), fun j h1 h2 => (h j (.inr ⟨h1, h2⟩)).trans (resetWord_end h1 h2)⟩

/-- The two regions read alike where each sentinel word does. -/
theorem sameSentinels_of_wordAt {s t : State} (h : ∀ j, SentinelIndex s.cfg j → wordAt t j = wordAt s j) :
    SameSentinels s t :=
  ⟨h 0 (.inl rfl), fun j h1 h2 => h j (.inr ⟨h1, h2⟩)⟩

/-- A turn leaves the sentinels or restores them by a reset. -/
theorem turnStep_regionsIntact {t : Turn} {s u : State} (hs : RegionsIntact s) (h : turnStep t s = .next u) :
    RegionsIntact u := by
  have hcfg := turnStep_cfg h
  refine regionsIntact_iff.mpr fun j hj => ?_
  rw [hcfg] at hj ⊢
  rcases turnStep_wordAt h j with hkept | hreset | ⟨h1, h2, -⟩
  · exact hkept.trans (regionsIntact_iff.mp hs j hj)
  · exact hreset
  · exact absurd ⟨h1, h2⟩ hj.not_pixel

/-- A step keeps the sentinel regions. -/
theorem step_regionsIntact {s t : State} (hs : RegionsIntact s) (h : step s = .next t) : RegionsIntact t :=
  have hs' : RegionsIntact (nextTurn s).2 := by simpa only [RegionsIntact, wordAt, nextTurn_buf, nextTurn_cfg] using hs
  turnStep_regionsIntact hs' h

/-- A command's effect leaves the sentinel words. -/
theorem wordAt_effect_sentinel (i : Instr) {s : State} {j : Nat} (hj : SentinelIndex s.cfg j) :
    wordAt (effect i s) j = wordAt s j :=
  (wordAt_effect i s j).resolve_right fun ⟨h1, h2, _⟩ => hj.not_pixel ⟨h1, h2⟩

/-- A command that is answered or held leaves the sentinel regions (R112). -/
theorem exec_sameSentinels {i : Instr} {s t : State} (h : exec i s = .next t) : SameSentinels s t := by
  cases hn : needsIdle i && s.busy with
  | true =>
    rw [exec_eq, hn] at h
    cases h
    exact ⟨rfl, fun _ _ _ => rfl⟩
  | false =>
    rw [exec_performed hn] at h
    cases h
    exact sameSentinels_of_wordAt fun j hj => wordAt_effect_sentinel i hj

/-! ## The writes of SET_PIXEL and SET_ALL -/

/-- An index outside the strip names no word. -/
theorem pixelAddress_eq_none {c : Config} {idx : Int} (h : idx < 0 ∨ (c.stripLen : Int) ≤ idx) :
    pixelAddress c idx = none := by
  rw [pixelAddress, if_neg (by omega)]

/-- An index outside the strip writes nothing (R111). -/
theorem writePixel_out_of_range {s : State} {idx : Int} (w : Word) (h : idx < 0 ∨ (s.cfg.stripLen : Int) ≤ idx) :
    writePixel idx w s = s := by
  rw [writePixel, pixelAddress_eq_none h]

/-- The pixel write changes nothing but the buffer. -/
theorem writePixel_frame (idx : Int) (w : Word) (s : State) :
    writePixel idx w s = { s with buf := (writePixel idx w s).buf } := by
  rcases writePixel_eq idx w s with ⟨a, -, h⟩ | ⟨-, h⟩ <;> rw [h]
  rfl

/-! ## The read of READ_WORD -/

/-- Inside the buffer READ_WORD reads as the DMA port does (R57, R115). -/
theorem readIndexed_natCast {s : State} {i : Nat} (hi : i < bufLen s.cfg) : readIndexed i s = dmaRead s i := by
  have haddr : wordAddress s.cfg i = some i := by
    rw [wordAddress, if_pos (by omega), Int.toNat_natCast]
  rw [readIndexed, haddr, dmaRead, if_pos hi]

/-- Outside the buffer READ_WORD reads 0, without a draw (R115). -/
theorem readIndexed_out_of_range {s : State} {idx : Int} (h : idx < 0 ∨ (bufLen s.cfg : Int) ≤ idx) :
    readIndexed idx s = (0#32, s) := by
  have haddr : wordAddress s.cfg idx = none := by
    rw [wordAddress, if_neg (by omega)]
  rw [readIndexed, haddr]

/-- READ_WORD answers the word its read gives, in the state its read gives, BUSY or not (R115). -/
theorem exec_readWord {idx : Int} {s t : State} {v : Word} (h : readIndexed idx s = (v, t)) :
    exec (.readWord idx) s = .next (respond .ok v t) := by
  rw [exec_performed rfl, answer, effect, h]

end Sys2Proof.Machine

open Sys2Proof Sys2Proof.Machine

/-- Settles O18: every word of a turn's next state is as before, as reset leaves it, or a pixel word (`turnStep_wordAt`). -/
theorem stepKeepsSentinels : Obligations.StepKeepsSentinels := fun _ _ => step_regionsIntact

/-- Settles O19: a word newly listed as written is a FrameWord at a pixel index (`turnStep_mem`), and every FrameWord has the
marker. -/
theorem stepKeepsWrittenWordsMarked : Obligations.StepKeepsWrittenWordsMarked := by
  rintro s t ⟨hmarked, hpixels⟩ h
  have hcfg := step_cfg h
  have hmem {p : Nat × Word} (hp : p ∈ t.buf) := turnStep_mem h hp
  simp only [nextTurn_buf, nextTurn_cfg] at hmem
  constructor <;> intro p hp
  · rcases hmem hp with hold | ⟨-, -, r, g, b, bri, hnew⟩
    · exact hmarked p hold
    · rw [hnew]
      exact frameWord_marker_field r g b bri
  · rw [hcfg]
    rcases hmem hp with hold | ⟨h1, h2, -⟩
    · exact hpixels p hold
    · exact ⟨h1, h2⟩

/-- Settles O6: SET_PIXEL has OP 2, holds while BUSY = 1, and else writes the one word its index names
(`pixelAddress_eq_some`, `wordAt_writePixel`) and no other field (`writePixel_frame`). -/
theorem setPixelCommand : Obligations.SetPixelCommand := by
  refine ⟨fun w h => ?_, fun w s hop hrsvd => ?_, fun idx r g b bri s hb => ?_, fun c idx a => pixelAddress_eq_some,
    fun idx r g b bri s hb => ⟨_, exec_performed (by rw [hb, Bool.and_false]), ?_, fun a => ?_⟩⟩
  · exact decodeCommand_of_match (op := 2#4) rfl h ⟨rfl, rfl, rfl, rfl, rfl⟩
  · exact offer_of_reserved s hop (by decide) hrsvd
  · exact exec_held rfl hb
  · exact congrArg (respond .ok 0#32) (writePixel_frame idx (frameWord r g b bri) s)
  · exact wordAt_writePixel idx (frameWord r g b bri) s a

/-- Settles O7: SET_ALL has OP 3, holds while BUSY = 1, and else writes the words 1 to N (`wordAt_writeAllPixels`). -/
theorem setAllCommand : Obligations.SetAllCommand := by
  refine ⟨fun w h => ?_, fun w s hop hrsvd => ?_, fun r g b bri s hb => ?_,
    fun r g b bri s hb => ⟨_, exec_performed (by rw [hb, Bool.and_false]), rfl, fun a => ?_⟩⟩
  · exact decodeCommand_of_match (op := 3#4) rfl h ⟨rfl, rfl, rfl, rfl⟩
  · exact offer_of_reserved s hop (by decide) hrsvd
  · exact exec_held rfl hb
  · exact wordAt_writeAllPixels (frameWord r g b bri) s a

/-- Settles O8: READ_WORD has OP 7 and answers what its read gives: the DMA port's word inside the buffer (`dmaRead_of_defined`,
`dmaRead_of_no_word`), 0 outside. -/
theorem readWordCommand : Obligations.ReadWordCommand := by
  refine ⟨fun w h => ?_, fun w s hop hrsvd => ?_, fun i v s hi hv => ?_, fun i s hi hundef => ?_, fun idx s hout => ?_⟩
  · exact decodeCommand_of_match (op := 7#4) rfl h rfl
  · exact offer_of_reserved s hop (by decide) hrsvd
  · exact exec_readWord ((readIndexed_natCast hi).trans (dmaRead_of_defined hi hv))
  · exact exec_readWord ((readIndexed_natCast hi).trans (dmaRead_of_no_word (.inr hundef)))
  · exact exec_readWord (readIndexed_out_of_range hout)

/-- Settles O14: a command's effect writes pixel indices alone (`wordAt_effect_sentinel`). -/
theorem noCommandWritesSentinels : Obligations.NoCommandWritesSentinels :=
  ⟨fun _ _ _ => exec_sameSentinels, fun _ _ _ => pixelAddress_range⟩

/-- Settles O15: `step_buf`, with the pixel command at the head named. -/
theorem onlyPixelCommandsAndResetWriteBuffer : Obligations.OnlyPixelCommandsAndResetWriteBuffer := by
  intro s t h hne
  rcases step_buf h with hbuf | hreset | hreset | ⟨i, hhost, -, hi, w, ws, hc, hd⟩
  · exact absurd hbuf hne
  · exact .inl hreset
  · exact .inr (.inl hreset)
  · refine .inr (.inr ⟨hhost, w, ws, hc, ?_⟩)
    cases hi with
    | setPixel idx r g b bri => exact .inl ⟨idx, r, g, b, bri, hd⟩
    | setAll r g b bri => exact .inr ⟨r, g, b, bri, hd⟩

/-- Settles O16: what is no reset writes the buffer only by a pixel command, and that is performed only with BUSY = 0
(`step_buf`). -/
theorem bufferIsFrozenWhileBusy : Obligations.BufferIsFrozenWhileBusy := by
  intro s t hb h hreset hresetBlock
  refine ⟨?_, step_cfg h⟩
  rcases step_buf h with hbuf | hr | hr | ⟨i, -, hidle, -⟩
  · exact hbuf
  · exact absurd hr hreset
  · exact absurd hr hresetBlock
  · simp [hb] at hidle

/-- Settles O17: reset establishes the sentinels, and every step keeps them. -/
theorem reachableSentinelsIntact : Obligations.ReachableSentinelsIntact := by
  intro s h
  induction h with
  | launch c program turns hwf => exact regionsIntact_resetWith c
  | step s t h hs ih => exact step_regionsIntact ih hs

/-- Settles O13: with BUSY = 0 the command is performed, and its write of no word is the identity
(`writePixel_out_of_range`). -/
theorem outOfRangePixelIsNoOp : Obligations.OutOfRangePixelIsNoOp := by
  intro idx r g b bri s hb hout
  rw [exec_performed (by rw [hb, Bool.and_false]), effect, writePixel_out_of_range _ hout]
  rfl

end

section
/-! PROOFS. The contract of a transfer (42_transfer_sync.md R143, R144, R62, R142) as an invariant of every step, and what it
says of every reachable state. -/

namespace Sys2Proof.Machine

/-! ## The four parts of the contract -/

/-- What the contract asks of a state with no environment fault on record. -/
def InContract (s : State) : Prop := Serialized s ∧ FrameInProgress s ∧ FramesComplete s ∧ HangsInTransfer s

/-- A complete frame (R144): `L` words, the sentinels in their places. -/
def WholeFrame (c : Config) (f : List Word) : Prop :=
  f.length = bufLen c ∧ f[0]? = some 0x00000000#32 ∧
    ∀ i, c.stripLen < i → i < bufLen c → f[i]? = some 0xFFFFFFFF#32

theorem framesComplete_iff {s : State} : FramesComplete s ↔ ∀ f ∈ completedFrames s, WholeFrame s.cfg f := Iff.rfl

/-- While the engine is active, the last frame is not completed. -/
theorem completedFrames_of_active {s : State} {fs : List (List Word)} {f : List Word} (ha : s.engActive = true)
    (hw : s.wire = fs ++ [f]) : completedFrames s = fs := by
  simp [completedFrames, ha, hw]

/-- Agreement with the buffer sees only the buffer and the configuration. -/
theorem FrameAgrees.congr {s t : State} {f : List Word} (h : FrameAgrees s f) (hb : t.buf = s.buf) (hc : t.cfg = s.cfg) :
    FrameAgrees t f :=
  fun i w hi hv => h i w hi (wordAt_congr hb hc i ▸ hv)

/-- A frame of `L` words that agrees with a buffer with intact sentinels is complete. -/
theorem wholeFrame_of_agrees {s : State} {f : List Word} (hr : RegionsIntact s) (hlen : f.length = bufLen s.cfg)
    (hf : FrameAgrees s f) : WholeFrame s.cfg f := by
  obtain ⟨hstart, hend⟩ := hr
  have hpos : 0 < bufLen s.cfg := by
    unfold bufLen
    omega
  exact ⟨hlen, hf 0 _ (hlen ▸ hpos) hstart, fun i h1 h2 => hf i _ (hlen ▸ h2) (hend i h1 h2)⟩

/-- A state in contract with BUSY = 0 has no transfer pending or moving and no hung engine. -/
theorem InContract.idle {s : State} (h : InContract s) (hb : s.busy = false) :
    s.startPending = false ∧ s.engActive = false ∧ s.engHung = false := by
  obtain ⟨hserialized, -, -, hhang⟩ := h
  obtain ⟨hpending, hactive⟩ := hserialized.idle hb
  refine ⟨hpending, hactive, ?_⟩
  by_contra hhung
  have hbusy := (hhang (by simpa using hhung)).1
  simp [hb] at hbusy

/-! ## Two ways to be in contract -/

/-- With an idle engine, BUSY is the start event, and every frame of the wire log must be complete. -/
theorem InContract.of_idle_engine {u : State} (ha : u.engActive = false) (hb : u.busy = u.startPending)
    (hh : u.engHung = false) (hp : u.engPtr ≤ bufLen u.cfg) (hw : ∀ f ∈ u.wire, WholeFrame u.cfg f) : InContract u := by
  refine ⟨⟨by simp [hb, ha], by simp [ha]⟩, ⟨hp, by simp [ha]⟩, ?_, by simp [HangsInTransfer, hh]⟩
  rwa [framesComplete_iff, completedFrames_of_idle ha]

/-- The contract sees only the transfer, BUSY and the hung engine. -/
theorem InContract.of_sameTransfer {s u : State} (h : InContract s) (hs : SameTransfer s u) (hb : u.busy = s.busy)
    (hh : u.engHung = s.engHung) : InContract u := by
  obtain ⟨hbuf, hcfg, hpending, hactive, hptr, hwire⟩ := hs
  simpa only [InContract, Serialized, FrameInProgress, FrameAgrees, FramesComplete, completedFrames, HangsInTransfer,
    wordAt_congr hbuf hcfg, hcfg, hpending, hactive, hptr, hwire, hb, hh] using h

/-! ## The contract over one turn -/

@[simp] theorem engineMove_buf (s : State) : (engineMove s).buf = s.buf := dmaRead_buf s s.engPtr
@[simp] theorem engineMove_startPending (s : State) : (engineMove s).startPending = s.startPending :=
  dmaRead_startPending s s.engPtr
@[simp] theorem engineMove_engActive (s : State) : (engineMove s).engActive = s.engActive := dmaRead_engActive s s.engPtr
@[simp] theorem engineMove_engPtr (s : State) : (engineMove s).engPtr = s.engPtr + 1 := rfl
@[simp] theorem engineMove_engHung (s : State) : (engineMove s).engHung = s.engHung := dmaRead_engHung s s.engPtr
@[simp] theorem engineMove_violations (s : State) : (engineMove s).violations = s.violations :=
  dmaRead_violations s s.engPtr

/-- A performed command keeps the contract: one that may write the buffer or start a transfer finds the engine idle, and the
others touch no transfer. -/
theorem InContract.after_command {s : State} (h : InContract s) {i : Instr} (c : RspCode) (d : Word)
    (hn : (needsIdle i && s.busy) = false) : InContract (respond c d (effect i s)) := by
  obtain ⟨hcfg, hactive, hptr, hhung, hwire, -⟩ := effect_frame i s
  obtain ⟨hbusy, hpending⟩ := effect_busy i s
  cases hi : needsIdle i with
  | true =>
    have hb : s.busy = false := by simpa [hi] using hn
    obtain ⟨hidlePending, hidle, hnotHung⟩ := h.idle hb
    obtain ⟨-, ⟨hle, -⟩, hcomplete, -⟩ := h
    rw [framesComplete_iff, completedFrames_of_idle hidle] at hcomplete
    refine .of_idle_engine (hactive.trans hidle) ?_ (hhung.trans hnotHung) ?_ ?_
    · simp [hbusy, hpending, hb, hidlePending]
    · simpa [hcfg, hptr] using hle
    · simpa [hcfg, hwire] using hcomplete
  | false =>
    obtain ⟨hbuf, hcfg', hpending', hactive', hptr', hwire'⟩ := sameTransfer_effect s hi
    have hne : i ≠ .beginTransfer := fun he => by simp [he, needsIdle] at hi
    rw [if_neg hne] at hbusy
    exact h.of_sameTransfer ⟨hbuf, hcfg', hpending', hactive', hptr', hwire'⟩ hbusy hhung

/-- ACCEPT keeps the contract: the start event becomes an active engine with an empty frame (R136). -/
theorem InContract.after_accept {s : State} (h : InContract s) (ha : canAccept s = true) : InContract (engineAccept s) := by
  obtain ⟨⟨hbusy, -⟩, -, hcomplete, hhang⟩ := h
  obtain ⟨-, hpending, hidle⟩ := canAccept_iff.mp ha
  refine ⟨⟨by simp [hbusy, hpending], by simp⟩, ⟨Nat.zero_le _, fun _ => ⟨s.wire, [], rfl, rfl, ?_⟩⟩, ?_, hhang⟩
  · intro i w hi
    simp at hi
  · rw [framesComplete_iff, completedFrames_of_active (engineAccept_engActive s) (engineAccept_wire s)]
    rwa [framesComplete_iff, completedFrames_of_idle hidle] at hcomplete

/-- The word MOVE reads is the buffer's where it is defined. -/
theorem dmaRead_word_of_defined {s : State} {a : Nat} {v : Word} (ha : a < bufLen s.cfg) (hv : wordAt s a = some v) :
    (dmaRead s a).1 = v := by
  rw [dmaRead_of_defined ha hv]

/-- MOVE keeps the contract: the frame in progress grows by the buffer's next word (R137). -/
theorem InContract.after_move {s : State} (h : InContract s) (hm : canMove s = true) : InContract (engineMove s) := by
  obtain ⟨hserialized, ⟨-, hframe⟩, hcomplete, hhang⟩ := h
  obtain ⟨-, hactive, hlt⟩ := canMove_iff.mp hm
  obtain ⟨fs, f, hwire, hlen, hagrees⟩ := hframe hactive
  have hactive' : (engineMove s).engActive = true := (engineMove_engActive s).trans hactive
  have hagrees' : FrameAgrees s (f ++ [(dmaRead s s.engPtr).1]) :=
    hagrees.concat fun v hv => dmaRead_word_of_defined hlt (hlen ▸ hv)
  refine ⟨?_, ⟨?_, fun _ => ⟨fs, _, engineMove_wire hwire, ?_, hagrees'.congr (engineMove_buf s) (engineMove_cfg s)⟩⟩,
    ?_, ?_⟩
  · simpa only [Serialized, engineMove_busy, engineMove_startPending, engineMove_engActive] using hserialized
  · rw [engineMove_cfg]
    exact hlt
  · rw [List.length_append, List.length_singleton, hlen, engineMove_engPtr]
  · rw [framesComplete_iff, completedFrames_of_active hactive' (engineMove_wire hwire), engineMove_cfg]
    rwa [framesComplete_iff, completedFrames_of_active hactive hwire] at hcomplete
  · rwa [HangsInTransfer, engineMove_engHung, engineMove_busy, engineMove_cfg]

/-- DONE keeps the contract: the frame in progress has its `L` words, the sentinels among them (R138, R144). -/
theorem InContract.after_done {s : State} (hr : RegionsIntact s) (h : InContract s) (hd : canDone s = true) :
    InContract (engineDone s) := by
  obtain ⟨⟨-, hnot⟩, ⟨hle, hframe⟩, hcomplete, -⟩ := h
  obtain ⟨hhung, hactive, hptr⟩ := canDone_iff.mp hd
  obtain ⟨fs, f, hwire, hlen, hagrees⟩ := hframe hactive
  have hpending : s.startPending = false := by simpa [hactive] using hnot
  rw [framesComplete_iff, completedFrames_of_active hactive hwire] at hcomplete
  refine .of_idle_engine rfl hpending.symm hhung hle fun g hg => ?_
  rw [engineDone_wire, hwire, List.mem_append, List.mem_singleton] at hg
  rcases hg with hg | rfl
  · exact hcomplete g hg
  · exact wholeFrame_of_agrees hr (hlen.trans hptr) hagrees

/-- HANG keeps the contract: it is enabled only inside a transfer, with ENGINE_LIVE false (R142). -/
theorem InContract.after_hang {s : State} (h : InContract s) (hh : canHang s = true) : InContract (engineHang s) := by
  obtain ⟨hserialized, hframe, hcomplete, -⟩ := h
  simp only [canHang, Bool.and_eq_true, Bool.not_eq_true'] at hh
  obtain ⟨⟨-, hlive⟩, htransfer⟩ := hh
  exact ⟨hserialized, hframe, hcomplete, fun _ => ⟨hserialized.1.trans htransfer, hlive⟩⟩

/-- A reset of block and engine together puts the state in contract (R190, R192). -/
theorem inContract_resetTogether (s : State) : InContract (resetTogether s) :=
  .of_idle_engine rfl rfl rfl (Nat.zero_le _) fun _ hf => absurd hf List.not_mem_nil

/-- A turn of a state in contract, with intact sentinels, leaves the contract only with an environment fault on record. -/
theorem turnStep_inContract {t : Turn} {s u : State} (hr : RegionsIntact s) (hc : InContract s)
    (h : turnStep t s = .next u) (hv : u.violations = []) : InContract u := by
  rcases turnStep_cases h with rfl | ⟨w, -, rfl⟩ | ⟨w, ws, i, -, -, -, hn, rfl⟩ | ⟨c, -, rfl⟩ | ⟨-, ha, rfl⟩ | ⟨-, hm, rfl⟩ |
    ⟨-, hd, rfl⟩ | ⟨-, hh, rfl⟩ | ⟨-, rfl⟩ | ⟨-, rfl⟩ | ⟨-, rfl⟩ | ⟨a, -, rfl⟩
  · exact hc
  · exact hc
  · exact hc.after_command .ok (answer i s) hn
  · exact hc
  · exact hc.after_accept ha
  · exact hc.after_move hm
  · exact hc.after_done hr hd
  · exact hc.after_hang hh
  · exact inContract_resetTogether s
  · simp at hv
  · simp at hv
  · simp [strayDmaRead] at hv

/-! ## The record of environment faults -/

/-- A turn adds to the record of environment faults and removes nothing (60_exceptions.md R181). -/
theorem turnStep_violations {t : Turn} {s u : State} (h : turnStep t s = .next u) :
    ∃ vs, u.violations = s.violations ++ vs := by
  have hkept {w : State} (hw : w.violations = s.violations) : ∃ vs, w.violations = s.violations ++ vs :=
    ⟨[], by rw [hw, List.append_nil]⟩
  rcases turnStep_cases h with rfl | ⟨w, -, rfl⟩ | ⟨w, ws, i, -, -, -, -, rfl⟩ | ⟨c, -, rfl⟩ | ⟨-, -, rfl⟩ | ⟨-, -, rfl⟩ |
    ⟨-, -, rfl⟩ | ⟨-, -, rfl⟩ | ⟨-, rfl⟩ | ⟨-, rfl⟩ | ⟨-, rfl⟩ | ⟨a, -, rfl⟩
  · exact hkept rfl
  · exact hkept rfl
  · exact hkept (by simp [effect_frame])
  · exact hkept rfl
  · exact hkept rfl
  · exact hkept (engineMove_violations s)
  · exact hkept rfl
  · exact hkept rfl
  · exact hkept rfl
  · exact ⟨_, resetBlockAlone_violations s⟩
  · exact ⟨_, strayDonePulse_violations s⟩
  · exact ⟨_, by rw [strayDmaRead, recordViolation_violations, dmaRead_violations]⟩

/-- Where a step leaves no environment fault on record, there was none before. -/
theorem step_violations_nil {s t : State} (h : step s = .next t) (hv : t.violations = []) : s.violations = [] := by
  obtain ⟨vs, hvs⟩ := turnStep_violations h
  rw [hv, nextTurn_violations] at hvs
  exact (List.append_eq_nil_iff.mp hvs.symm).1

/-! ## Steps and reachable states -/

/-- A step keeps the contract where the sentinels are intact. -/
theorem step_contract {s t : State} (hr : RegionsIntact s) (hc : Contract s) (h : step s = .next t) : Contract t := by
  intro hv
  have hr' : RegionsIntact (nextTurn s).2 := by simpa only [RegionsIntact, wordAt, nextTurn_buf, nextTurn_cfg] using hr
  have hc' : InContract (nextTurn s).2 :=
    InContract.of_sameTransfer (hc (step_violations_nil h hv)) (sameTransfer_nextTurn s) (by simp) (by simp)
  exact turnStep_inContract hr' hc' h hv

/-- Every reachable state meets the contract. -/
theorem Reachable.contract {s : State} (h : Reachable s) : Contract s := by
  induction h with
  | launch c program turns hwf => exact contract_resetWith c
  | step s t h hs ih => exact step_contract (reachableSentinelsIntact s h) ih hs

end Sys2Proof.Machine

open Sys2Proof.Machine

/-- Settles O31: `step_contract`, over the engine's steps, the commands and the reset case by case (`turnStep_inContract`). -/
theorem stepKeepsContract : Obligations.StepKeepsContract := fun _ _ => step_contract

/-- Settles O32: serialization is a part of the contract, which every reachable state meets. -/
theorem reachableSerialized : Obligations.ReachableSerialized := by
  intro s h hv
  obtain ⟨hserialized, -⟩ := h.contract hv
  exact hserialized

/-- Settles O33: complete frames are a part of the contract, which every reachable state meets. -/
theorem reachableFramesComplete : Obligations.ReachableFramesComplete := by
  intro s h hv
  obtain ⟨-, -, hcomplete, -⟩ := h.contract hv
  exact hcomplete

end

section
/-! PROOFS. The TransferSynchronizer's commands (42_transfer_sync.md R131 to R134, R140) and the host's turn that runs the head
of the queue (R135). -/

namespace Sys2Proof.Machine

/-- The STATUS word is BUSY as a number (R27, 30_encoding.md R82). -/
theorem statusWord_eq (s : State) : statusWord s = if s.busy then 0x00000001#32 else 0x00000000#32 := by
  unfold statusWord
  cases s.busy <;> rfl

/-- Everything a command can do while BUSY = 1: touch neither the transfer nor BUSY nor a hung engine (R140). -/
theorem exec_while_busy {i : Instr} {s t : State} (hb : s.busy = true) (h : exec i s = .next t) :
    SameTransfer s t ∧ t.busy = s.busy ∧ t.engHung = s.engHung := by
  cases hi : needsIdle i with
  | true =>
    rw [exec_held hi hb] at h
    cases h
    exact ⟨⟨rfl, rfl, rfl, rfl, rfl, rfl⟩, rfl, rfl⟩
  | false =>
    rw [exec_performed (by rw [hi, Bool.false_and])] at h
    cases h
    obtain ⟨hbuf, hcfg, hpending, hactive, hptr, hwire⟩ := sameTransfer_effect s hi
    obtain ⟨-, -, -, hhung, -⟩ := effect_frame i s
    have hne : i ≠ .beginTransfer := fun he => by simp [he, needsIdle] at hi
    exact ⟨⟨hbuf, hcfg, hpending, hactive, hptr, hwire⟩, by simp [effect_busy, hne], hhung⟩

/-- An offered word is held without any change, or leaves the queue with exactly one response (R80, R135). -/
theorem offer_held_or_answered {w : Command} {s t : State} (h : offer w s = .next t) :
    t = s ∨ (t.cmds = s.cmds.tail ∧ ∃ r, t.resps = s.resps ++ [r]) := by
  rcases offer_cases w s with ⟨i, -, -, -, ho⟩ | ⟨i, -, -, ho⟩ | ⟨-, ho⟩ | ⟨-, ho⟩ <;> rw [ho] at h <;> cases h
  · exact .inl rfl
  · obtain ⟨-, -, -, -, -, hcmds, hresps, -⟩ := effect_frame i s
    exact .inr ⟨by rw [respond_cmds, hcmds], _, by rw [respond_resps, hresps]⟩
  · exact .inr ⟨rfl, _, rfl⟩
  · exact .inr ⟨rfl, _, rfl⟩

/-- A host turn that does not stop changes nothing, or answers the head of the queue once (R135). -/
theorem hostTurn_held_or_answered {s t : State} (h : turnStep .host s = .next t) :
    t = s ∨ ∃ w ws r, s.cmds = w :: ws ∧ t.cmds = ws ∧ t.resps = s.resps ++ [r] := by
  cases hs : stuck s with
  | true => simp [turnStep, hs] at h
  | false =>
    cases hc : s.cmds with
    | nil =>
      rw [turnStep_host_idle hs hc] at h
      cases h
      exact .inl rfl
    | cons w ws =>
      rw [turnStep_host hs hc] at h
      refine (offer_held_or_answered h).imp_right ?_
      rintro ⟨hcmds, r, hresps⟩
      exact ⟨w, ws, r, rfl, by rw [hcmds, hc, List.tail_cons], hresps⟩

/-- A step is its turn, done in the state with the turn taken. -/
theorem step_of_nextTurn {s u : State} {t : Turn} (h : nextTurn s = (t, u)) : step s = turnStep t u := by
  rw [step, h]

/-- A word that decodes to an instruction is offered as that instruction. -/
theorem offer_legal {w : Command} {i : Instr} (h : decodeCommand w = .legal i) (s : State) : offer w s = exec i s := by
  rw [offer, h]

/-- The table's words are decoded as command words. -/
theorem decodeTableWord_eq_some {nbits w : Nat} {i : Instr} :
    decodeTableWord nbits w = some i ↔ decodeCommand (tableWord nbits w) = .legal i := by
  unfold decodeTableWord
  cases decodeCommand (tableWord nbits w) <;> simp

/-- With BUSY = 0 a command at the head never holds, so that the state is not stuck. -/
theorem stuck_of_idle_head {s : State} {w : Command} {ws : List Command} (hb : s.busy = false) (hc : s.cmds = w :: ws) :
    stuck s = false :=
  stuck_of_hostEnabled (by simp [hostEnabled, hc, hb])

end Sys2Proof.Machine

open Sys2Proof Sys2Proof.Machine

/-- Settles O9: BEGIN_TRANSFER has OP 4, holds while BUSY = 1, and else has the effect `startTransfer`. -/
theorem beginTransferCommand : Obligations.BeginTransferCommand := by
  refine ⟨fun w h => ?_, fun w s hop hrsvd => ?_, fun s hb => exec_held rfl hb, fun s hb => ?_⟩
  · exact decodeCommand_of_match (op := 4#4) rfl h trivial
  · exact offer_of_reserved s hop (by decide) hrsvd
  · exact exec_performed (by rw [hb, Bool.and_false])

/-- Settles O10: WAIT has OP 5, holds while BUSY = 1, and else has no effect but its response. -/
theorem waitCommand : Obligations.WaitCommand := by
  refine ⟨fun w h => ?_, fun w s hop hrsvd => ?_, fun s hb => exec_held rfl hb, fun s hb => ?_⟩
  · exact decodeCommand_of_match (op := 5#4) rfl h trivial
  · exact offer_of_reserved s hop (by decide) hrsvd
  · exact exec_performed (by rw [hb, Bool.and_false])

/-- Settles O11: STATUS has OP 6, never holds, and answers BUSY (`statusWord_eq`), which a performed WAIT leaves at 0. -/
theorem statusCommand : Obligations.StatusCommand := by
  refine ⟨fun w h => ?_, fun w s hop hrsvd => ?_, fun s => ?_, fun s t u hb hwait hstatus => ?_⟩
  · exact decodeCommand_of_match (op := 6#4) rfl h trivial
  · exact offer_of_reserved s hop (by decide) hrsvd
  · rw [exec_performed rfl, answer, statusWord_eq]
    rfl
  · rw [exec_performed (by rw [hb, Bool.and_false])] at hwait
    cases hwait
    rw [exec_performed rfl] at hstatus
    cases hstatus
    simp [answer, effect, statusWord_eq, hb]

/-- Settles O12: NOP has OP 0 and never holds; the all-zero word matches its row of the opcode table. -/
theorem nopCommand : Obligations.NopCommand := by
  refine ⟨fun w h => ?_, fun w s hop hrsvd => ?_, fun s => exec_performed rfl⟩
  · exact decodeCommand_of_match (op := 0#4) rfl h trivial
  · exact offer_of_reserved s hop (by decide) hrsvd

/-- Settles O30: while BUSY = 1 a command holds or is one that touches no transfer (`exec_while_busy`). -/
theorem noCommandCancelsTransfer : Obligations.NoCommandCancelsTransfer := by
  intro i s t hb h
  obtain ⟨hsame, hbusy, hhung⟩ := exec_while_busy hb h
  exact ⟨hbusy.trans hb, hsame.startPending, hsame.engActive, hsame.engPtr, hhung, hsame.wire⟩

/-- Settles O41: a host turn holds or answers the head once (`hostTurn_held_or_answered`); taking the turn touches neither the
queue nor the responses. -/
theorem oneResponsePerCommandInOrder : Obligations.OneResponsePerCommandInOrder := by
  intro s t hhost h
  have hturn : turnStep .host (nextTurn s).2 = .next t := hhost ▸ h
  simpa only [nextTurn_cmds, nextTurn_resps] using hostTurn_held_or_answered hturn

/-- Settles O43: a host turn in a state that is not stuck offers the head (`turnStep_host`), and a legal word is offered as the
instruction it decodes to; the next turn is the list's head or the open turn. -/
theorem stepRunsHeadCommand : Obligations.StepRunsHeadCommand := by
  refine ⟨fun s u w ws i hn hc hd hs => ?_, fun s u hn hc hs => ?_, fun s t ts => nextTurn_cons, fun s => nextTurn_nil,
    fun c n h => openTurn_of_not_live h n⟩
  · have hc' : u.cmds = w :: ws := by simpa [hn, hc] using nextTurn_cmds s
    rw [step_of_nextTurn hn, turnStep_host hs hc', offer_legal hd]
  · have hc' : u.cmds = [] := by simpa [hn, hc] using nextTurn_cmds s
    rw [step_of_nextTurn hn, turnStep_host_idle hs hc']

/-- Settles O44: placing a word makes the next turn the host's with that word at the head, which O43 runs; with BUSY = 0 it
does not hold, so that the state is not stuck. -/
theorem placedWordIsRun : Obligations.PlacedWordIsRun := by
  intro s w i hb hd
  have hplaced : nextTurn (s.withFetchWord 64 w) = (.host, { s with cmds := tableWord 64 w :: s.cmds.tail }) :=
    nextTurn_cons rfl
  have ⟨hruns, _⟩ := stepRunsHeadCommand
  exact hruns _ _ _ _ i hplaced rfl (decodeTableWord_eq_some.mp hd) (stuck_of_idle_head hb rfl)

end

section
/-! PROOFS. The transfer engine's steps (42_transfer_sync.md R136 to R139, R142), its hanging, and the states in which host and
engine have no enabled step (R148). -/

namespace Sys2Proof.Machine

/-! ## The engine's turn -/

/-- The guard of HANG (R142). -/
theorem canHang_iff {s : State} :
    canHang s = true ↔ s.engHung = false ∧ s.cfg.engineLive = false ∧ (s.startPending = true ∨ s.engActive = true) := by
  simp [canHang, and_assoc]

/-- An engine step is enabled where one of the four guards holds. -/
theorem engineEnabled_iff {s : State} :
    engineEnabled s = true ↔ canAccept s = true ∨ canMove s = true ∨ canDone s = true ∨ canHang s = true := by
  simp [engineEnabled, or_assoc]

/-- An enabled action is an enabled engine step. -/
theorem engineEnabled_of_action {a : EngineAction} {s : State} (h : a.enabled s = true) : engineEnabled s = true := by
  cases a with
  | accept => exact engineEnabled_iff.mpr (.inl h)
  | move => exact engineEnabled_iff.mpr (.inr (.inl h))
  | done => exact engineEnabled_iff.mpr (.inr (.inr (.inl h)))

/-- Of ACCEPT, MOVE and DONE at most one is enabled, and the engine takes it. -/
theorem engineStep_of_enabled {a : EngineAction} {s : State} (h : a.enabled s = true) : engineStep s = a.effect s := by
  cases a with
  | accept => exact if_pos h
  | move =>
    obtain ⟨-, hactive, -⟩ := canMove_iff.mp h
    have hnotAccept : canAccept s ≠ true := by simp [canAccept, hactive]
    exact (if_neg hnotAccept).trans (if_pos h)
  | done =>
    obtain ⟨-, hactive, hptr⟩ := canDone_iff.mp h
    have hnotAccept : canAccept s ≠ true := by simp [canAccept, hactive]
    have hnotMove : canMove s ≠ true := by simp [canMove, hptr]
    exact (if_neg hnotAccept).trans ((if_neg hnotMove).trans (if_pos h))

/-- On the engine's turn the enabled action is taken. -/
theorem turnStep_engine {a : EngineAction} {s : State} (h : a.enabled s = true) :
    turnStep .engine s = .next (a.effect s) := by
  rw [turnStep, stuck_of_engineEnabled (engineEnabled_of_action h), engineStep_of_enabled h]
  rfl

/-- Taking the next turn enables and disables no engine step. -/
@[simp] theorem EngineAction.enabled_nextTurn (a : EngineAction) (s : State) :
    a.enabled (nextTurn s).2 = a.enabled s := by
  cases a <;> simp [EngineAction.enabled, canAccept, canMove, canDone]

@[simp] theorem canHang_nextTurn (s : State) : canHang (nextTurn s).2 = canHang s := by simp [canHang]

/-- A step with the engine's turn takes the enabled action. -/
theorem step_engine {a : EngineAction} {s u : State} (hn : nextTurn s = (.engine, u)) (h : a.enabled s = true) :
    step s = .next (a.effect u) := by
  rw [step_of_nextTurn hn]
  refine turnStep_engine ?_
  rw [← h, ← a.enabled_nextTurn s, hn]

/-- MOVE of a defined word (R137). -/
theorem engineMove_of_defined {s : State} {fs : List (List Word)} {f : List Word} {v : Word}
    (hlt : s.engPtr < bufLen s.cfg) (hw : s.wire = fs ++ [f]) (hv : wordAt s s.engPtr = some v) :
    engineMove s = { s with engPtr := s.engPtr + 1, wire := fs ++ [f ++ [v]] } := by
  simp only [engineMove, dmaRead_of_defined hlt hv, hw, appendToLastFrame_concat]

/-- MOVE of an undefined word moves a draw (R57, R137). -/
theorem engineMove_of_undefined {s : State} {fs : List (List Word)} {f : List Word} (hw : s.wire = fs ++ [f])
    (hu : isDefined s s.engPtr = false) :
    engineMove s =
      { s with engPtr := s.engPtr + 1, wire := fs ++ [f ++ [Config.draw s.draws]], draws := s.draws + 1 } := by
  simp only [engineMove, dmaRead_of_no_word (.inr hu), hw, appendToLastFrame_concat, draw32]

/-- The state with the turn taken is the state before but for the turns. -/
theorem nextTurn_eq {s u : State} {t : Turn} (h : nextTurn s = (t, u)) : ∃ ts n, u = { s with turns := ts, tick := n } := by
  simpa [h] using nextTurn_state s

/-- A step with HANG's turn, from a state that is not stuck, hangs the engine where HANG is enabled. -/
theorem step_hang {s u : State} (hn : nextTurn s = (.hang, u)) (hs : stuck u = false) :
    step s = .next (if canHang s then engineHang u else u) := by
  rw [step_of_nextTurn hn, turnStep, hs, hangStep, ← canHang_nextTurn s, hn]
  rfl

/-- HANG's guard makes the state one that is not stuck. -/
theorem not_stuck_of_canHang {s u : State} {t : Turn} (hn : nextTurn s = (t, u)) (h : canHang s = true) :
    stuck u = false := by
  refine stuck_of_engineEnabled (engineEnabled_iff.mpr (.inr (.inr (.inr ?_))))
  rw [← h, ← canHang_nextTurn s, hn]

/-! ## The hung engine -/

/-- With a hung engine and BUSY = 1, no turn but a reset or a stray `xfer_done` touches BUSY, the engine or the wire log
(R142). -/
theorem turnStep_hung {t : Turn} {s u : State} (hh : s.engHung = true) (hb : s.busy = true) (h : turnStep t s = .next u)
    (hreset : t ≠ .reset) (hresetBlock : t ≠ .resetBlockOnly) (hdone : t ≠ .strayDone) :
    u.engHung = true ∧ u.busy = true ∧ u.wire = s.wire ∧ u.engPtr = s.engPtr := by
  rcases turnStep_cases h with rfl | ⟨w, -, rfl⟩ | ⟨w, ws, i, -, -, -, hn, rfl⟩ | ⟨c, -, rfl⟩ | ⟨-, ha, -⟩ | ⟨-, hm, -⟩ |
    ⟨-, hd, -⟩ | ⟨-, hg, -⟩ | ⟨ht, -⟩ | ⟨ht, -⟩ | ⟨ht, -⟩ | ⟨a, -, rfl⟩
  · exact ⟨hh, hb, rfl, rfl⟩
  · exact ⟨hh, hb, rfl, rfl⟩
  · obtain ⟨hsame, hbusy, hhung⟩ := exec_while_busy hb (exec_performed hn)
    exact ⟨hhung.trans hh, hbusy.trans hb, hsame.wire, hsame.engPtr⟩
  · exact ⟨hh, hb, rfl, rfl⟩
  · simp [canAccept, hh] at ha
  · simp [canMove, hh] at hm
  · simp [canDone, hh] at hd
  · simp [canHang, hh] at hg
  · exact absurd ht hreset
  · exact absurd ht hresetBlock
  · exact absurd ht hdone
  · simp [strayDmaRead, hh, hb]

/-! ## Enabled steps and stuck states -/

/-- In contract an engine step is enabled exactly where BUSY = 1 and the engine does not hang. -/
theorem InContract.engineEnabled_iff {s : State} (h : InContract s) :
    engineEnabled s = true ↔ s.busy = true ∧ s.engHung = false := by
  obtain ⟨⟨hbusy, -⟩, ⟨hle, -⟩, -, -⟩ := h
  rw [Machine.engineEnabled_iff, canAccept_iff, canMove_iff, canDone_iff, canHang_iff, hbusy, Bool.or_eq_true]
  constructor
  · rintro (⟨hhung, hpending, -⟩ | ⟨hhung, hactive, -⟩ | ⟨hhung, hactive, -⟩ | ⟨hhung, -, htransfer⟩)
    · exact ⟨.inl hpending, hhung⟩
    · exact ⟨.inr hactive, hhung⟩
    · exact ⟨.inr hactive, hhung⟩
    · exact ⟨htransfer, hhung⟩
  · rintro ⟨htransfer, hhung⟩
    cases hactive : s.engActive with
    | false => exact .inl ⟨hhung, by simpa [hactive] using htransfer, rfl⟩
    | true =>
      rcases Nat.lt_or_eq_of_le hle with hlt | heq
      · exact .inr (.inl ⟨hhung, rfl, hlt⟩)
      · exact .inr (.inr (.inl ⟨hhung, rfl, heq⟩))

/-- The host has no enabled step where its queue is empty or its head holds (R135). -/
theorem hostEnabled_eq_false_iff {s : State} :
    hostEnabled s = false ↔ ∀ w ws, s.cmds = w :: ws → wordNeedsIdle w = true ∧ s.busy = true := by
  unfold hostEnabled
  cases s.cmds <;> simp

/-- Stuck: no enabled step of host or engine, and commands left or a hung engine with BUSY = 1 (R148). -/
theorem stuck_iff {s : State} :
    stuck s = true ↔ hostEnabled s = false ∧ engineEnabled s = false ∧
      (s.cmds = [] → s.busy = true ∧ s.engHung = true) := by
  cases hhost : hostEnabled s <;> cases hengine : engineEnabled s <;> simp [stuck, ended, hhost, hengine, imp_iff_not_or]

/-- A state is stuck only with BUSY = 1: with BUSY = 0 a command left would be answered. -/
theorem busy_of_stuck {s : State} (h : stuck s = true) : s.busy = true := by
  obtain ⟨hhost, -, hempty⟩ := stuck_iff.mp h
  cases hc : s.cmds with
  | nil => exact (hempty hc).1
  | cons w ws => exact (hostEnabled_eq_false_iff.mp hhost w ws hc).2

/-! ## Turns that stop and turns that answer -/

/-- A turn of the host or of the engine, HANG included (10_state.md R34). -/
def AgentTurn (t : Turn) : Prop := t = .host ∨ t = .engine ∨ t = .hang

/-- In a stuck state a turn of the host or the engine stops the machine. -/
theorem turnStep_stuck {t : Turn} {s : State} (hs : stuck s = true) (ht : AgentTurn t) : turnStep t s = .fault .stuck := by
  rcases ht with rfl | rfl | rfl <;> simp [turnStep, hs]

/-- Every other turn, and every turn in another state, answers a next state. -/
theorem turnStep_answers {t : Turn} {s : State} (h : ¬(stuck s = true ∧ AgentTurn t)) : ∃ u, turnStep t s = .next u := by
  cases hs : stuck s with
  | false => exact turnStep_of_not_stuck hs t
  | true =>
    have ht : ¬AgentTurn t := fun ht => h ⟨hs, ht⟩
    cases t with
    | host | engine | hang => exact absurd (by simp [AgentTurn]) ht
    | issue | reset | resetBlockOnly | strayDone | strayRead => exact ⟨_, rfl⟩

end Sys2Proof.Machine

open Sys2Proof Sys2Proof.Machine

/-- Settles O23: with its guard true, ACCEPT is the engine's step (`step_engine`). -/
theorem engineAcceptStep : Obligations.EngineAcceptStep := by
  intro s u hn hhung hpending hidle
  rw [step_engine (a := .accept) hn (canAccept_iff.mpr ⟨hhung, hpending, hidle⟩)]
  obtain ⟨ts, n, rfl⟩ := nextTurn_eq hn
  rfl

/-- Settles O24: with its guard true, MOVE is the engine's step, and its word is the defined one or a draw
(`engineMove_of_defined`, `engineMove_of_undefined`). -/
theorem engineMoveStep : Obligations.EngineMoveStep := by
  intro s u fs f hn hhung hactive hlt hwire
  rw [step_engine (a := .move) hn (canMove_iff.mpr ⟨hhung, hactive, hlt⟩)]
  obtain ⟨ts, n, rfl⟩ := nextTurn_eq hn
  refine ⟨fun v hv => congrArg _ ?_, fun hundef => congrArg _ ?_⟩
  · exact engineMove_of_defined hlt hwire hv
  · exact engineMove_of_undefined hwire hundef

/-- Settles O25: with its guard true, DONE is the engine's step (`step_engine`). -/
theorem engineDoneStep : Obligations.EngineDoneStep := by
  intro s u hn hhung hactive hptr
  exact step_engine (a := .done) hn (canDone_iff.mpr ⟨hhung, hactive, hptr⟩)

/-- Settles O26: the two premises are the guard of HANG and its negation (`canHang_iff`). -/
theorem engineHangStep : Obligations.EngineHangStep := by
  intro s u hn hhung
  refine ⟨fun hlive htransfer => ?_, fun hnot hs => ?_⟩
  · have hcan := canHang_iff.mpr ⟨hhung, hlive, htransfer⟩
    rw [step_hang hn (not_stuck_of_canHang hn hcan), if_pos hcan]
    rfl
  · rw [step_hang hn hs, if_neg]
    intro hcan
    obtain ⟨-, hlive, htransfer⟩ := canHang_iff.mp hcan
    rcases hnot with hlive' | ⟨hpending, hactive⟩
    · simp [hlive] at hlive'
    · simp [hpending, hactive] at htransfer

/-- Settles O27: a hung engine has no enabled step, and what else could clear BUSY is excluded (`turnStep_hung`). -/
theorem hungEngineKeepsBusy : Obligations.HungEngineKeepsBusy := by
  intro s t hh hb h hreset hresetBlock hdone
  simpa only [nextTurn_wire, nextTurn_engPtr] using
    turnStep_hung ((nextTurn_engHung s).trans hh) ((nextTurn_busy s).trans hb) h hreset hresetBlock hdone

/-- Settles O28: a stray pulse clears BUSY and is recorded by the BUSY it found. -/
theorem spuriousDoneIsIgnored : Obligations.SpuriousDoneIsIgnored := by
  intro s u hn
  obtain ⟨ts, n, rfl⟩ := nextTurn_eq hn
  rw [step_of_nextTurn hn]
  refine ⟨fun hb => ?_, fun hb => ?_⟩ <;> simp [turnStep, strayDonePulse, recordViolation, takeDone, hb]

/-- Settles O38: in contract and without a hung engine, enabled is BUSY (`InContract.engineEnabled_iff`), and BUSY = 0 leaves
the engine idle. -/
theorem endOfRunIsIdle : Obligations.EndOfRunIsIdle := by
  intro s hcontract hv hhung
  have hc : InContract s := hcontract hv
  have henabled : engineEnabled s = false ↔ s.busy = false := by
    rw [← Bool.not_eq_true, ← Bool.not_eq_true, hc.engineEnabled_iff, and_iff_left hhung]
  refine ⟨henabled, fun h => ?_⟩
  obtain ⟨-, hactive, -⟩ := hc.idle (henabled.mp h)
  exact completedFrames_of_idle hactive

/-- Settles O39: a stuck state has BUSY = 1, so that in contract the engine's want of an enabled step means that it hangs. -/
theorem stuckOnlyWhenHung : Obligations.StuckOnlyWhenHung := by
  intro s hcontract hv
  have henabled := InContract.engineEnabled_iff (hcontract hv)
  constructor
  · intro hs
    have hb := busy_of_stuck hs
    obtain ⟨hhost, hengine, -⟩ := stuck_iff.mp hs
    have hhung : s.engHung = true := by simpa [hengine, hb] using henabled
    exact ⟨hb, hhung, fun w ws hc => (hostEnabled_eq_false_iff.mp hhost w ws hc).1⟩
  · rintro ⟨hb, hhung, hheads⟩
    have hengine : engineEnabled s = false := by simpa [hhung] using henabled
    exact stuck_iff.mpr ⟨hostEnabled_eq_false_iff.mpr fun w ws hc => ⟨hheads w ws hc, hb⟩, hengine, fun _ => ⟨hb, hhung⟩⟩

/-- Settles O40: a turn of host or engine in a stuck state is the fault (`turnStep_stuck`), and all else answers a next state
(`turnStep_answers`). -/
theorem stepStopsOnlyWhenStuck : Obligations.StepStopsOnlyWhenStuck := by
  intro s
  by_cases h : stuck (nextTurn s).2 = true ∧ AgentTurn (nextTurn s).1
  · have hfault : step s = .fault .stuck := turnStep_stuck h.1 h.2
    exact ⟨⟨fun _ => h, fun _ => hfault⟩, by simp [hfault]⟩
  · obtain ⟨u, hu⟩ := turnStep_answers h
    have hnext : step s = .next u := hu
    exact ⟨⟨by simp [hnext], fun h' => absurd h' h⟩, by simp [hnext]⟩

end

section
/-! PROOFS. Progress of a transfer (42_transfer_sync.md R142): the exact count of engine turns, the bound over every interleaving,
and the endless executions under ENGINE_LIVE, which are weakly fair. -/

namespace Sys2Proof.Machine

/-! ## Runs of given turns -/

/-- A run of `k + 1` steps takes one step and then `k`. -/
theorem run_succ {s t : State} (h : step s = .next t) (k : Nat) : core.run (k + 1) s = core.run k t := by
  have hstep : core.step s = .next t := h
  simp only [Host.Core.run, hstep]

/-- MOVE, whichever word it moves: the buffer's where it is defined, else a draw (R57, R137). -/
theorem engineMove_moves {s : State} {fs : List (List Word)} {f : List Word} (hlt : s.engPtr < bufLen s.cfg)
    (hw : s.wire = fs ++ [f]) :
    ∃ w n, (∀ v, wordAt s s.engPtr = some v → w = v) ∧
      engineMove s = { s with engPtr := s.engPtr + 1, wire := fs ++ [f ++ [w]], draws := n } := by
  cases hv : wordAt s s.engPtr with
  | some v => exact ⟨v, s.draws, fun v' hv' => Option.some.inj hv', engineMove_of_defined hlt hw hv⟩
  | none => exact ⟨_, _, nofun, engineMove_of_undefined hw (by rw [isDefined, hv, Option.isSome_none])⟩

/-- An engine that does not hang is filling the frame `f` behind the frames `fs`, with `k` words still to move. -/
structure Moving (k : Nat) (fs : List (List Word)) (f : List Word) (s : State) : Prop where
  active : s.engActive = true
  notHung : s.engHung = false
  left : s.engPtr + k = bufLen s.cfg
  wire : s.wire = fs ++ [f]
  length : f.length = s.engPtr
  agrees : FrameAgrees s f

/-- An engine turn with a word left moves it: the frame agrees with the buffer one word further. -/
theorem Moving.step_move {k : Nat} {fs : List (List Word)} {f : List Word} {s : State} (h : Moving (k + 1) fs f s)
    {ts : List Turn} (hturns : s.turns = .engine :: ts) :
    ∃ w n, step s = .next { s with engPtr := s.engPtr + 1, wire := fs ++ [f ++ [w]], turns := ts, draws := n } ∧
      Moving k fs (f ++ [w])
        { s with engPtr := s.engPtr + 1, wire := fs ++ [f ++ [w]], turns := ts, draws := n } := by
  obtain ⟨hactive, hnotHung, hleft, hwire, hlen, hagrees⟩ := h
  have hlt : s.engPtr < bufLen s.cfg := by omega
  have hmove := step_engine (a := .move) (nextTurn_cons hturns) (canMove_iff.mpr ⟨hnotHung, hactive, hlt⟩)
  obtain ⟨w, n, hword, heq⟩ := engineMove_moves (s := { s with turns := ts }) hlt hwire
  refine ⟨w, n, hmove.trans (congrArg _ heq), hactive, hnotHung, ?_, rfl, ?_, ?_⟩
  · exact (Nat.succ_add_eq_add_succ s.engPtr k).trans hleft
  · rw [List.length_append, List.length_singleton, hlen]
  · exact hagrees.concat fun v hv => hword v (hlen ▸ hv)

/-- An engine turn with no word left is DONE. -/
theorem Moving.step_done {fs : List (List Word)} {f : List Word} {s : State} (h : Moving 0 fs f s) {ts : List Turn}
    (hturns : s.turns = .engine :: ts) :
    step s = .next { s with busy := false, engActive := false, turns := ts } :=
  step_engine (a := .done) (nextTurn_cons hturns) (canDone_iff.mpr ⟨h.notHung, h.active, h.left⟩)

/-- `k` MOVEs and one DONE complete the frame. -/
theorem Moving.run {k : Nat} {fs : List (List Word)} {f : List Word} {s : State} (h : Moving k fs f s) {ts : List Turn}
    (hturns : s.turns = List.replicate (k + 1) .engine ++ ts) :
    ∃ g n, core.run (k + 1) s = .next { s with
        busy := false, engActive := false, engPtr := bufLen s.cfg, wire := fs ++ [g], turns := ts, draws := n } ∧
      g.length = bufLen s.cfg ∧ FrameAgrees s g := by
  rw [List.replicate_succ, List.cons_append] at hturns
  induction k generalizing f s with
  | zero =>
    have hptr : s.engPtr = bufLen s.cfg := h.left
    refine ⟨f, s.draws, ?_, h.length.trans hptr, h.agrees⟩
    rw [run_succ (h.step_done hturns), ← hptr, ← h.wire]
    rfl
  | succ k ih =>
    obtain ⟨w, n, hstep, hmoving⟩ := h.step_move hturns
    rw [run_succ hstep]
    exact ih hmoving rfl

/-- Behind ACCEPT the whole frame is still to move. -/
theorem moving_engineAccept {s : State} (hh : s.engHung = false) : Moving (bufLen s.cfg) s.wire [] (engineAccept s) where
  active := rfl
  notHung := hh
  left := Nat.zero_add _
  wire := rfl
  length := rfl
  agrees := fun i w hi => by simp at hi

/-! ## The turns a transfer still needs -/

/-- An upper bound on the engine turns until BUSY = 0: the words left and DONE, and ACCEPT where it is still to come. -/
def turnsLeft (s : State) : Nat :=
  if s.busy then if s.engActive then bufLen s.cfg - s.engPtr + 1 else bufLen s.cfg + 2 else 0

theorem turnsLeft_of_idle {s : State} (hb : s.busy = false) : turnsLeft s = 0 := by simp [turnsLeft, hb]

theorem turnsLeft_pending {s : State} (hb : s.busy = true) (ha : s.engActive = false) :
    turnsLeft s = bufLen s.cfg + 2 := by
  simp [turnsLeft, hb, ha]

theorem turnsLeft_active {s : State} (hb : s.busy = true) (ha : s.engActive = true) :
    turnsLeft s = bufLen s.cfg - s.engPtr + 1 := by
  simp [turnsLeft, hb, ha]

/-- No turn is left to take exactly where no transfer is in flight. -/
theorem turnsLeft_eq_zero_iff {s : State} : turnsLeft s = 0 ↔ s.busy = false := by
  cases hb : s.busy <;> cases ha : s.engActive <;> simp [turnsLeft, hb, ha]

theorem turnsLeft_le (s : State) : turnsLeft s ≤ bufLen s.cfg + 2 := by
  unfold turnsLeft
  split_ifs <;> omega

theorem turnsLeft_congr {s u : State} (hc : u.cfg = s.cfg) (hb : u.busy = s.busy) (ha : u.engActive = s.engActive)
    (hp : u.engPtr = s.engPtr) : turnsLeft u = turnsLeft s := by
  simp only [turnsLeft, hc, hb, ha, hp]

@[simp] theorem turnsLeft_nextTurn (s : State) : turnsLeft (nextTurn s).2 = turnsLeft s :=
  turnsLeft_congr (nextTurn_cfg s) (nextTurn_busy s) (nextTurn_engActive s) (nextTurn_engPtr s)

/-- While BUSY = 1, an engine that does not hang has ACCEPT, MOVE or DONE enabled. -/
theorem LiveEngine.action {s : State} (h : LiveEngine s) (hb : s.busy = true) : ∃ a : EngineAction, a.enabled s = true := by
  obtain ⟨-, hhung, hle, htransfer⟩ := h
  cases hactive : s.engActive with
  | false =>
    have hpending : s.startPending = true := by simpa [hactive] using htransfer hb
    exact ⟨.accept, canAccept_iff.mpr ⟨hhung, hpending, hactive⟩⟩
  | true =>
    rcases Nat.lt_or_eq_of_le hle with hlt | heq
    · exact ⟨.move, canMove_iff.mpr ⟨hhung, hactive, hlt⟩⟩
    · exact ⟨.done, canDone_iff.mpr ⟨hhung, hactive, heq⟩⟩

/-- An engine action brings the end of the transfer nearer by one turn. -/
theorem turnsLeft_effect {a : EngineAction} {s : State} (hb : s.busy = true) (h : a.enabled s = true) :
    turnsLeft (a.effect s) < turnsLeft s := by
  cases a with
  | accept =>
    obtain ⟨-, -, hidle⟩ := canAccept_iff.mp h
    rw [turnsLeft_pending hb hidle, EngineAction.effect, turnsLeft_active (s := engineAccept s) hb rfl, engineAccept_cfg]
    omega
  | move =>
    obtain ⟨-, hactive, hlt⟩ := canMove_iff.mp h
    rw [turnsLeft_active hb hactive, EngineAction.effect, turnsLeft_active (by simpa using hb) (by simpa using hactive),
      engineMove_cfg, engineMove_engPtr]
    omega
  | done =>
    obtain ⟨-, hactive, -⟩ := canDone_iff.mp h
    rw [turnsLeft_active hb hactive, EngineAction.effect, turnsLeft_of_idle (engineDone_busy s)]
    omega

/-- While BUSY = 1, no turn puts the end of the transfer further off. -/
theorem turnStep_turnsLeft_le {t : Turn} {s u : State} (hb : s.busy = true) (h : turnStep t s = .next u) :
    turnsLeft u ≤ turnsLeft s := by
  rcases turnStep_cases h with rfl | ⟨w, -, rfl⟩ | ⟨w, ws, i, -, -, -, hn, rfl⟩ | ⟨c, -, rfl⟩ | ⟨-, ha, rfl⟩ | ⟨-, hm, rfl⟩ |
    ⟨-, hd, rfl⟩ | ⟨-, -, rfl⟩ | ⟨-, rfl⟩ | ⟨-, rfl⟩ | ⟨-, rfl⟩ | ⟨a, -, rfl⟩
  · exact le_rfl
  · exact le_rfl
  · obtain ⟨hsame, hbusy, -⟩ := exec_while_busy hb (exec_performed hn)
    exact (turnsLeft_congr hsame.cfg hbusy hsame.engActive hsame.engPtr).le
  · exact le_rfl
  · exact (turnsLeft_effect (a := .accept) hb ha).le
  · exact (turnsLeft_effect (a := .move) hb hm).le
  · exact (turnsLeft_effect (a := .done) hb hd).le
  · exact le_rfl
  · exact Nat.zero_le _
  · exact Nat.zero_le _
  · exact Nat.zero_le _
  · exact (turnsLeft_congr (dmaRead_cfg s _) (dmaRead_busy s _) (dmaRead_engActive s _) (dmaRead_engPtr s _)).le

/-- While BUSY = 1, no step puts the end of the transfer further off. -/
theorem step_turnsLeft_le {s t : State} (hb : s.busy = true) (h : step s = .next t) : turnsLeft t ≤ turnsLeft s := by
  simpa using turnStep_turnsLeft_le ((nextTurn_busy s).trans hb) h

/-- While BUSY = 1, an engine turn of an engine that does not hang brings the end of the transfer nearer. -/
theorem step_turnsLeft_lt {s t : State} (hl : LiveEngine s) (hb : s.busy = true) (hturn : (nextTurn s).1 = .engine)
    (h : step s = .next t) : turnsLeft t < turnsLeft s := by
  obtain ⟨a, ha⟩ := hl.action hb
  rw [step_engine (Prod.ext hturn rfl) ha] at h
  cases h
  simpa using turnsLeft_effect (s := (nextTurn s).2) (by simpa using hb) (by simpa using ha)

/-! ## The turns and the count of open turns -/

/-- A turn touches neither the list of turns nor the count of open turns. -/
theorem turnStep_turns_tick {t : Turn} {s u : State} (h : turnStep t s = .next u) :
    u.turns = s.turns ∧ u.tick = s.tick := by
  rcases turnStep_cases h with rfl | ⟨w, -, rfl⟩ | ⟨w, ws, i, -, -, -, -, rfl⟩ | ⟨c, -, rfl⟩ | ⟨-, -, rfl⟩ | ⟨-, -, rfl⟩ |
    ⟨-, -, rfl⟩ | ⟨-, -, rfl⟩ | ⟨-, rfl⟩ | ⟨-, rfl⟩ | ⟨-, rfl⟩ | ⟨a, -, rfl⟩
  · exact ⟨rfl, rfl⟩
  · exact ⟨rfl, rfl⟩
  · obtain ⟨-, -, -, -, -, -, -, -, hturns, htick⟩ := effect_frame i s
    exact ⟨hturns, htick⟩
  · exact ⟨rfl, rfl⟩
  · exact ⟨rfl, rfl⟩
  · exact ⟨dmaRead_turns s _, dmaRead_tick s _⟩
  · exact ⟨rfl, rfl⟩
  · exact ⟨rfl, rfl⟩
  · exact ⟨rfl, rfl⟩
  · exact ⟨rfl, rfl⟩
  · exact ⟨rfl, rfl⟩
  · exact ⟨dmaRead_turns s _, dmaRead_tick s _⟩

/-- A step takes the head off the list of turns. -/
theorem step_turns_of_cons {s u : State} {t : Turn} {ts : List Turn} (hturns : s.turns = t :: ts) (h : step s = .next u) :
    u.turns = ts := by
  rw [step_of_nextTurn (nextTurn_cons hturns)] at h
  exact (turnStep_turns_tick h).1

/-- With no turn listed a step counts one open turn. -/
theorem step_turns_of_nil {s u : State} (hturns : s.turns = []) (h : step s = .next u) :
    u.turns = [] ∧ u.tick = s.tick + 1 := by
  rw [step_of_nextTurn (nextTurn_nil hturns)] at h
  obtain ⟨hu, htick⟩ := turnStep_turns_tick h
  exact ⟨hu.trans hturns, htick⟩

/-- An engine that does not hang ends its transfer within any listed turns that hold as many engine turns as it needs. -/
theorem LiveEngine.run_to_idle {s : State} (hl : LiveEngine s) {ts us : List Turn} (hturns : s.turns = ts ++ us)
    (hcount : turnsLeft s ≤ ts.count .engine) : ∃ k t, k ≤ ts.length ∧ core.run k s = .next t ∧ t.busy = false := by
  induction ts generalizing s with
  | nil => exact ⟨0, s, le_rfl, rfl, turnsLeft_eq_zero_iff.mp (Nat.le_zero.mp hcount)⟩
  | cons t ts ih =>
    cases hb : s.busy with
    | false => exact ⟨0, s, Nat.zero_le _, rfl, hb⟩
    | true =>
      obtain ⟨u, hu, hlu⟩ := liveEngine_step hl
      have hcount' : turnsLeft u ≤ ts.count .engine := by
        by_cases ht : t = .engine
        · have hlt := step_turnsLeft_lt hl hb (by rw [nextTurn_cons hturns, ht]) hu
          rw [ht, List.count_cons_self] at hcount
          omega
        · rw [List.count_cons_of_ne ht] at hcount
          exact (step_turnsLeft_le hb hu).trans hcount
      obtain ⟨k, v, hk, hrun, hv⟩ := ih hlu (step_turns_of_cons hturns hu) hcount'
      exact ⟨k + 1, v, Nat.succ_le_succ hk, (run_succ hu k).trans hrun, hv⟩

/-- Under ENGINE_LIVE a state in contract has an engine that does not hang. -/
theorem InContract.liveEngine {s : State} (h : InContract s) (hl : s.cfg.engineLive = true) : LiveEngine s := by
  obtain ⟨⟨hbusy, -⟩, ⟨hle, -⟩, -, hhang⟩ := h
  refine ⟨hl, ?_, hle, fun hb => by simpa [hbusy] using hb⟩
  by_contra hhung
  have hnotLive := (hhang (by simpa using hhung)).2
  simp [hl] at hnotLive

/-! ## Endless executions -/

/-- After any number of steps an endless execution is where `core.run` says. -/
theorem IsRun.core_run {run : Nat → State} (h : IsRun run) (k : Nat) : core.run k (run 0) = .next (run k) := by
  induction k generalizing run with
  | zero => rfl
  | succ k ih => exact (run_succ (h 0) k).trans (ih (run := fun i => run (i + 1)) fun i => h (i + 1))

theorem IsRun.cfg {run : Nat → State} (h : IsRun run) (k : Nat) : (run k).cfg = (run 0).cfg := by
  induction k with
  | zero => rfl
  | succ k ih => exact (step_cfg (h k)).trans ih

theorem IsRun.liveEngine {run : Nat → State} (h : IsRun run) (hl : LiveEngine (run 0)) (k : Nat) : LiveEngine (run k) := by
  induction k with
  | zero => exact hl
  | succ k ih =>
    obtain ⟨u, hu, hlu⟩ := liveEngine_step ih
    rw [h k] at hu
    cases hu
    exact hlu

/-- The list of turns runs out. -/
theorem IsRun.turns_run_out {run : Nat → State} (h : IsRun run) (k : Nat) : ∃ j, k ≤ j ∧ (run j).turns = [] := by
  generalize hts : (run k).turns = ts
  induction ts generalizing k with
  | nil => exact ⟨k, le_rfl, hts⟩
  | cons t ts ih =>
    obtain ⟨j, hkj, hj⟩ := ih (k + 1) (step_turns_of_cons hts (h k))
    exact ⟨j, Nat.le_of_succ_le hkj, hj⟩

/-- From there on every step counts one open turn. -/
theorem IsRun.tick_add {run : Nat → State} (h : IsRun run) {j : Nat} (hj : (run j).turns = []) (m : Nat) :
    (run (j + m)).turns = [] ∧ (run (j + m)).tick = (run j).tick + m := by
  induction m with
  | zero => exact ⟨hj, rfl⟩
  | succ m ih =>
    obtain ⟨hturns, htick⟩ := ih
    obtain ⟨hturns', htick'⟩ := step_turns_of_nil hturns (h (j + m))
    exact ⟨hturns', by rw [← Nat.add_assoc, htick', htick, Nat.add_assoc]⟩

/-- Under ENGINE_LIVE the engine's turn comes again and again (log 5). -/
theorem IsRun.engine_turn {run : Nat → State} (h : IsRun run) (hl : (run 0).cfg.engineLive = true) (k : Nat) :
    ∃ j, k ≤ j ∧ (nextTurn (run j)).1 = .engine := by
  obtain ⟨j, hkj, hj⟩ := h.turns_run_out k
  obtain ⟨n, hn, hwait⟩ := engineWait_eventually_zero (run j).tick
  obtain ⟨hturns, htick⟩ := h.tick_add hj (n - (run j).tick)
  refine ⟨j + (n - (run j).tick), by omega, ?_⟩
  rw [nextTurn_nil hturns, htick, Nat.add_sub_cancel' hn]
  exact openTurn_engine (by rw [h.cfg, hl]) hwait

/-- An endless execution under ENGINE_LIVE is weakly fair: on the engine's next turn the action is taken, if it is still
enabled. -/
theorem IsRun.weaklyFair {run : Nat → State} (h : IsRun run) (hl : (run 0).cfg.engineLive = true) : WeaklyFair run := by
  intro a k _
  obtain ⟨j, hkj, hturn⟩ := h.engine_turn hl k
  refine ⟨j, hkj, ?_⟩
  cases ha : a.enabled (run j) with
  | true => exact .inl (step_engine (Prod.ext hturn rfl) ha)
  | false => exact .inr rfl

/-- The next state of an engine that does not hang, as one that does not hang. -/
noncomputable def liveNext (s : { s : State // LiveEngine s }) : { s : State // LiveEngine s } :=
  ⟨(liveEngine_step s.2).choose, (liveEngine_step s.2).choose_spec.2⟩

/-- From an engine that does not hang an endless execution starts: no step stops. -/
theorem LiveEngine.exists_run {s : State} (h : LiveEngine s) : ∃ run : Nat → State, run 0 = s ∧ IsRun run := by
  refine ⟨fun k => (liveNext^[k] ⟨s, h⟩).1, rfl, fun k => ?_⟩
  change step (liveNext^[k] ⟨s, h⟩).1 = .next (liveNext^[k + 1] ⟨s, h⟩).1
  rw [Function.iterate_succ_apply']
  exact (liveEngine_step (liveNext^[k] ⟨s, h⟩).2).choose_spec.1

/-- In an endless execution of an engine that does not hang, BUSY falls: otherwise the turns left have a least value, which the
engine's next turn would go below. -/
theorem IsRun.busy_falls {run : Nat → State} (h : IsRun run) (hl : LiveEngine (run 0)) : ∃ k, (run k).busy = false := by
  by_contra hnever
  have hb (k : Nat) : (run k).busy = true := by simpa using not_exists.mp hnever k
  have hmin := Function.argmin_le (fun k => turnsLeft (run k))
  have hanti : Antitone fun k => turnsLeft (run k) := antitone_nat_of_succ_le fun k => step_turnsLeft_le (hb k) (h k)
  obtain ⟨j, hj, hturn⟩ := h.engine_turn hl.1 (Function.argmin fun k => turnsLeft (run k))
  have hlt : turnsLeft (run (j + 1)) < turnsLeft (run j) := step_turnsLeft_lt (h.liveEngine hl j) (hb j) hturn (h j)
  exact absurd (hlt.trans_le (hanti hj)) (hmin (j + 1)).not_gt

/-- Where an endless execution starts with BUSY = 1, some step of it is the first to clear BUSY. -/
theorem IsRun.first_fall {run : Nat → State} (h : IsRun run) (hl : LiveEngine (run 0)) (hb : (run 0).busy = true) :
    ∃ k, (∀ i ≤ k, (run i).busy = true) ∧ (run (k + 1)).busy = false := by
  have hfalls := h.busy_falls hl
  have hidle := Nat.find_spec hfalls
  obtain ⟨k, hk⟩ : ∃ k, Nat.find hfalls = k + 1 :=
    Nat.exists_eq_succ_of_ne_zero fun h0 => by simp [h0, hb] at hidle
  rw [hk] at hidle
  exact ⟨k, fun i hi => by simpa using Nat.find_min hfalls (m := i) (by omega), hidle⟩

/-- Steps with BUSY = 1 all the way, at whose end no environment fault is on record, are one transfer draining. -/
theorem IsRun.draining {run : Nat → State} (h : IsRun run) {k : Nat} (hb : ∀ i ≤ k, (run i).busy = true)
    (hv : (run k).violations = []) : Draining (run 0) (run k) := by
  induction k with
  | zero => exact .start _ (hb 0 le_rfl) hv
  | succ k ih =>
    have hdrain := ih (fun i hi => hb i (Nat.le_succ_of_le hi)) (step_violations_nil (h k) hv)
    exact .step _ _ _ hdrain (h k) (hb (k + 1) le_rfl) hv

end Sys2Proof.Machine

open Sys2Proof Sys2Proof.Machine

/-- Settles O35: one ACCEPT, which leaves the whole frame to move, and then `Moving.run`, by induction on the words left. -/
theorem transferCompletesInTurns : Obligations.TransferCompletesInTurns := by
  intro s ts hb hpending hidle hhung hturns
  have haccept := step_engine (a := .accept) (nextTurn_cons hturns) (canAccept_iff.mpr ⟨hhung, hpending, hidle⟩)
  have hmoving := moving_engineAccept (s := { s with turns := List.replicate (bufLen s.cfg + 1) .engine ++ ts }) hhung
  rw [run_succ haccept]
  exact hmoving.run rfl

/-- Settles O36: under ENGINE_LIVE no state stops and the engine's turns count the transfer down (`LiveEngine.run_to_idle`),
whatever the turns between them are. -/
theorem fairTurnsCompleteTransfer : Obligations.FairTurnsCompleteTransfer := by
  intro s ts us _ hcontract hv hlive hturns _ hcount
  have hc : InContract s := hcontract hv
  exact (hc.liveEngine hlive).run_to_idle hturns ((turnsLeft_le s).trans hcount)

/-- Settles O60: the engine's turn comes again and again (`IsRun.weaklyFair`), no step stops (`LiveEngine.exists_run`), and the
execution so built has a first step that clears BUSY; up to it the transfer drains, so that O34 gives its frame. -/
theorem liveEngineIsWeaklyFair : Obligations.LiveEngineIsWeaklyFair := by
  refine ⟨fun run h hl => h.weaklyFair hl, fun s hcontract hv hl => ?_, fun s hcontract hv hl hb => ?_⟩
  · exact (InContract.liveEngine (hcontract hv) hl).exists_run
  · have hc : InContract s := hcontract hv
    obtain ⟨run, rfl, hrun⟩ := (hc.liveEngine hl).exists_run
    obtain ⟨k, hbefore, hafter⟩ := hrun.first_fall (hc.liveEngine hl) hb
    refine ⟨k, run k, run (k + 1), hrun.core_run k, hbefore k le_rfl, hrun k, hafter, fun hpending hturn huv => ?_⟩
    obtain ⟨⟨-, hnot⟩, -⟩ := hc
    have hidle : (run 0).engActive = false := by simpa [hpending] using hnot
    have hdrain := hrun.draining hbefore (step_violations_nil (hrun k) huv)
    obtain ⟨f, hwire, hlen, hagrees, -⟩ := frameIsBufferAtBegin _ _ _ hpending hidle hdrain (hrun k) hturn hafter
    exact ⟨f, hwire, hlen, hagrees⟩

end

section
/-! PROOFS. Exceptions (60_exceptions.md): the answer to an illegal word at the head of the queue (R171, R172) and the record of
environment faults (R181). -/

namespace Sys2Proof.Machine

/-- OP is checked first: from 8 up it makes the word an ILL_OP, whatever RSVD is (30_encoding.md R79). -/
theorem decodeCommand_eq_illOp {w : Command} (hop : 8 ≤ (opField w).toNat) : decodeCommand w = .illOp := by
  rw [decodeCommand_eq rfl rfl, if_pos hop]

/-- A reserved bit under OP 0 to 7 makes the word an ILL_RSVD (30_encoding.md R79). -/
theorem decodeCommand_eq_illRsvd {w : Command} (hop : (opField w).toNat ≤ 7) (hrsvd : rsvdField w ≠ 0#4) :
    decodeCommand w = .illRsvd := by
  rw [decodeCommand_eq rfl rfl, if_neg (by omega), if_pos hrsvd]

/-- On a host turn a head that never holds, and that the block answers as illegal, gets that answer with data 0 whatever BUSY
and the engine are: with such a head the host has an enabled step, so that the state is not stuck (R148, R173). -/
theorem step_answers_illegal_head {s u : State} {w : Command} {ws : List Command} {c : RspCode}
    (hn : nextTurn s = (.host, u)) (hc : s.cmds = w :: ws) (hidle : wordNeedsIdle w = false)
    (ho : offer w u = .next (respondIllegal c u)) :
    step s = .next { u with resps := s.resps ++ [⟨c, 0#32⟩], cmds := ws } := by
  have hcmds : u.cmds = w :: ws := by simpa [hn, hc] using nextTurn_cmds s
  have hresps : u.resps = s.resps := by simpa [hn] using nextTurn_resps s
  have hstuck : stuck u = false := stuck_of_hostEnabled (by simp [hostEnabled, hcmds, hidle])
  rw [step_of_nextTurn hn, turnStep_host hstuck hcmds, ho, respondIllegal, respond, hcmds, hresps, List.tail_cons]

end Sys2Proof.Machine

open Sys2Proof Sys2Proof.Machine

/-- Settles O42: the two ranges of OP decide which illegal kind the word decodes to, and neither kind needs BUSY = 0, so that
the host turn answers it (`step_answers_illegal_head`). -/
theorem illegalWordsAnsweredAtOnce : Obligations.IllegalWordsAnsweredAtOnce := by
  refine ⟨⟨rfl, rfl⟩, fun s u w ws hn hc => ⟨fun hop => ?_, fun hop hrsvd => ?_⟩⟩
  · have hd := decodeCommand_eq_illOp hop
    exact step_answers_illegal_head hn hc (by rw [wordNeedsIdle, hd]) (by rw [offer, hd])
  · have hd := decodeCommand_eq_illRsvd hop hrsvd
    exact step_answers_illegal_head hn hc (by rw [wordNeedsIdle, hd]) (by rw [offer, hd])

/-- Settles O46: a turn only adds to the record (`turnStep_violations`), and taking the turn does not touch it. -/
theorem violationsAreSticky : Obligations.ViolationsAreSticky := by
  intro s t h
  simpa only [nextTurn_violations] using turnStep_violations h

end

section
/-! PROOFS. Reset and hazards (70_reset_and_hazards.md): a reset turn (R190 to R193), the command and response handshake of the
cycle-level reference (R205) with the reset that drops a response (R190), and BUSY as a register (R204, R206). -/

namespace Sys2Proof.Machine

/-- A reset of block and engine leaves their reset values; the logs of the run and the model's own counters stay (log 7). -/
theorem resetTogether_eq (s : State) :
    resetTogether s = { State.resetWith s.cfg with
      resps := s.resps, violations := s.violations, turns := s.turns, tick := s.tick, draws := s.draws } := rfl

/-! ## What `cmd_ready` says of an offered word -/

/-- `cmd_ready` on the decoded word (R205). -/
theorem cmdReady_eq (rst pending : Bool) (w : Command) (s : State) :
    cmdReady rst pending w s = (!rst && !pending && !(wordNeedsIdle w && s.busy)) := by
  rw [cmdReady, needsIdleBits_eq]

/-- A word that needs BUSY = 0 holds while BUSY = 1. -/
theorem offer_held {w : Command} {s : State} (hw : wordNeedsIdle w = true) (hb : s.busy = true) : offer w s = .next s := by
  cases hd : decodeCommand w with
  | legal i =>
    rw [offer_legal hd]
    exact exec_held (by simpa [wordNeedsIdle, hd] using hw) hb
  | illOp => simp [wordNeedsIdle, hd] at hw
  | illRsvd => simp [wordNeedsIdle, hd] at hw

/-- With no reset and no response pending, only the hold keeps a word from being ready (R205). -/
theorem offer_of_not_ready {w : Command} {s : State} (h : cmdReady false false w s = false) : offer w s = .next s := by
  have hheld : wordNeedsIdle w = true ∧ s.busy = true := by simpa [cmdReady_eq] using h
  exact offer_held hheld.1 hheld.2

/-- An offered word sets BUSY where it is a BEGIN_TRANSFER, and leaves it otherwise (R131). A BEGIN_TRANSFER that holds finds
BUSY = 1. -/
theorem offer_busy {w : Command} {s t : State} (h : offer w s = .next t) :
    t.busy = (s.busy || decide (decodeCommand w = .legal .beginTransfer)) := by
  rcases offer_cases w s with ⟨i, -, -, hb, ho⟩ | ⟨i, hd, -, ho⟩ | ⟨hd, ho⟩ | ⟨hd, ho⟩ <;> rw [ho] at h <;> cases h
  · simp [hb]
  · by_cases hi : i = .beginTransfer <;> simp [effect_busy, hd, hi]
  · simp [respondIllegal, hd]
  · simp [respondIllegal, hd]

/-! ## BEGIN_TRANSFER against BUSY -/

/-- No BEGIN_TRANSFER is accepted while BUSY = 1 (R204): it needs BUSY = 0, so it is not ready. -/
theorem beginAcc_of_busy {w : Command} {s : State} (rst pending valid : Bool) (hb : s.busy = true) :
    beginAcc rst pending valid w s = false := by
  by_cases hd : decodeCommand w = .legal .beginTransfer
  · have hw : wordNeedsIdle w = true := by simp [wordNeedsIdle, hd, needsIdle]
    simp [beginAcc, cmdAccepted, cmdReady_eq, hw, hb]
  · simp [beginAcc, hd]

/-- A BEGIN_TRANSFER offered while BUSY = 0, with no reset and no response pending, is accepted (R205). -/
theorem beginAcc_of_idle {w : Command} {s : State} (hb : s.busy = false) :
    beginAcc false false true w s = decide (decodeCommand w = .legal .beginTransfer) := by
  simp [beginAcc, cmdAccepted, cmdReady_eq, hb]

/-- In a cycle that accepts a word, a transfer begins where the word is a BEGIN_TRANSFER (R206). -/
theorem beginsNow_of_accepts {c : CycleState} {i : CycleIn} (h : acceptsNow i c = true) :
    beginsNow i c = decide (decodeCommand i.cmdWord = .legal .beginTransfer) := by
  rw [acceptsNow] at h
  rw [beginsNow, beginAcc, h, Bool.true_and]

/-! ## BUSY over one clock edge -/

/-- The completion pulse touches BUSY alone. -/
theorem clearBusy_eq (b : Bool) (s : State) : clearBusy b s = { s with busy := !b && s.busy } := by
  cases b <;> rfl

@[simp] theorem clearBusy_busy (b : Bool) (s : State) : (clearBusy b s).busy = (!b && s.busy) := by
  rw [clearBusy_eq]

@[simp] theorem giveResponse_busy (i : CycleIn) (c : CycleState) : (giveResponse i c).busy = c.block.busy := by
  rw [giveResponse_eq]

/-- One clock edge sets BUSY and `xfer_start` by the register equations (R206): a reset comes first, then an accepted
BEGIN_TRANSFER, then `xfer_done`. -/
theorem cycle_busy_xferStart (c : CycleState) (i : CycleIn) :
    (cycle c i).block.busy = busyNext i.rst (beginsNow i c) i.xferDone c.block.busy ∧
    (cycle c i).xferStart = xferStartNext i.rst (beginsNow i c) := by
  cases hr : i.rst with
  | true =>
    rw [cycle_reset hr]
    exact ⟨rfl, rfl⟩
  | false =>
    cases ha : acceptsNow i c with
    | true =>
      obtain ⟨t, r, ho, -, hc⟩ := cycle_accept ha
      have hbusy : t.busy = (c.block.busy || beginsNow i c) := by rw [beginsNow_of_accepts ha, offer_busy ho]
      rw [hc]
      cases hbegin : beginsNow i c <;> cases hdone : i.xferDone <;> simp [busyNext, xferStartNext, hbusy, hbegin]
    | false =>
      rw [cycle_idle hr ha, beginsNow_of_not_accepts ha]
      cases hdone : i.xferDone <;> simp [busyNext, xferStartNext]

/-! ## The response in flight -/

/-- A pending response keeps the command port closed (R205). -/
theorem acceptsNow_of_pending {c : CycleState} {p : Pending} (i : CycleIn) (hp : c.pending = some p) :
    acceptsNow i c = false := acceptsNow_eq_false (.inr (by simp [rspPending, hp]))

/-- A pending response is offered once its latency has passed (R205). -/
theorem rspValid_of_pending {c : CycleState} {p : Pending} (hp : c.pending = some p) : rspValid c = (p.wait == 0) := by
  rw [rspValid, hp]

/-- A pending response that is not taken is held, one cycle nearer to its offer (R205). -/
theorem cycle_holds_response {c : CycleState} {i : CycleIn} {p : Pending} (hp : c.pending = some p) (hr : i.rst = false)
    (ht : takenNow i c = false) :
    (cycle c i).pending = some ⟨p.rsp, p.wait - 1⟩ ∧ (cycle c i).block.resps = c.block.resps := by
  rw [cycle_idle hr (acceptsNow_of_pending i hp)]
  simp [holdResponse, giveResponse, hp, ht]

/-- A pending response that is taken is given, and none is pending then (R205). -/
theorem cycle_gives_response {c : CycleState} {i : CycleIn} {p : Pending} (hp : c.pending = some p) (hr : i.rst = false)
    (ht : takenNow i c = true) :
    (cycle c i).pending = none ∧ (cycle c i).block.resps = c.block.resps ++ [p.rsp] := by
  rw [cycle_idle hr (acceptsNow_of_pending i hp)]
  simp [holdResponse, giveResponse, hp, ht]

/-- Over cycles without a reset, no more than are still to wait, a pending response only waits: nothing can take it before it
is offered. -/
theorem cycles_pending {c : CycleState} {p : Pending} {is : List CycleIn} (hp : c.pending = some p)
    (hrst : ∀ j ∈ is, j.rst = false) (hlen : is.length ≤ p.wait) :
    (cycles c is).pending = some ⟨p.rsp, p.wait - is.length⟩ := by
  induction is generalizing c p with
  | nil => exact hp
  | cons i is ih =>
    obtain ⟨hi, his⟩ := List.forall_mem_cons.mp hrst
    rw [List.length_cons] at hlen
    have hwait : p.wait ≠ 0 := by omega
    have hnot : takenNow i c = false := by simp [takenNow, rspValid_of_pending hp, hwait]
    have hnext := ih (cycle_holds_response hp hi hnot).1 his (Nat.le_sub_one_of_lt hlen)
    rw [cycles, List.foldl_cons, ← cycles, hnext, List.length_cons, Nat.sub_sub, Nat.add_comm 1]

/-- A response that waits `LAT_<op>` cycles from the acceptance is first offered in the last of them, whatever the inputs but for
a reset (R205). -/
theorem rspValid_cycles_iff {c : CycleState} {r : Response} {op : BitVec 4} {is : List CycleIn}
    (hp : c.pending = some ⟨r, latency op - 1⟩) (hrst : ∀ j ∈ is, j.rst = false) (hlen : is.length + 1 ≤ latency op) :
    rspValid (cycles c is) = true ↔ is.length + 1 = latency op := by
  have hpending := cycles_pending hp hrst (Nat.le_sub_one_of_lt hlen)
  rw [rspValid_of_pending hpending, beq_iff_eq, Nat.sub_sub, Nat.sub_eq_zero_iff_le, Nat.add_comm]
  exact ⟨hlen.antisymm, Eq.ge⟩

end Sys2Proof.Machine

open Sys2Proof Sys2Proof.Machine

/-- Settles O48: a reset turn resets block and engine together (`resetTogether_eq`), and taking the turn changes only the
turns. -/
theorem resetStepInitializes : Obligations.ResetStepInitializes := by
  intro s u hn
  obtain ⟨ts, n, rfl⟩ := nextTurn_eq hn
  rw [step_of_nextTurn hn, turnStep, resetTogether_eq]

/-- Settles O58: `cmd_ready` is the negated hold of the decoded word; an accepted word's response is pending (`cycle_accept`),
waits its latency out, by induction on the cycles (`cycles_pending`), and is held until it is taken or a reset drops it. -/
theorem readyMeansPerformed : Obligations.ReadyMeansPerformed := by
  refine fun w s => ⟨needsIdleBits_eq w, fun hready => ?_, offer_of_not_ready, fun c i =>
    ⟨fun hpending => ?_, fun haccept => ?_, fun p => cycle_holds_response, fun p => cycle_gives_response, fun hr => ?_⟩⟩
  · obtain ⟨t, r, ho, hresps, -⟩ := acceptWord_of_ready hready
    exact ⟨t, r, ho, hresps⟩
  · exact ⟨by simp [readyNow, cmdReady, hpending], acceptsNow_eq_false (.inr hpending)⟩
  · obtain ⟨t, r, ho, hresps, hc⟩ := cycle_accept haccept
    have hp : (cycle c i).pending = some ⟨r, latency (opField i.cmdWord) - 1⟩ := by rw [hc]
    exact ⟨t, r, ho, hresps, hp, by rw [hc, clearBusy_eq], fun _ => rspValid_cycles_iff hp⟩
  · exact ⟨by rw [cycle_reset hr], acceptsNow_eq_false (.inl hr)⟩

/-- Settles O59: an offered word sets BUSY exactly where it is a BEGIN_TRANSFER (`offer_busy`), which is accepted exactly while
BUSY = 0; the clock edge is `cycle_busy_xferStart`. -/
theorem busyRegisterEquation : Obligations.BusyRegisterEquation := by
  refine ⟨fun w s t h => ?_, fun _ => rfl, fun _ _ _ => rfl, fun _ _ rst pending valid => beginAcc_of_busy rst pending valid,
    cycle_busy_xferStart⟩
  rw [offer_busy h]
  cases hb : s.busy with
  | true => simp [busyNext, beginAcc_of_busy false false true hb]
  | false => simp [busyNext, beginAcc_of_idle hb]

end

section
/-! PROOFS. Every step keeps the canonical form of the list of written words (20_memory.md section 1, log 4). -/

namespace Sys2Proof.Machine

/-- A turn keeps the canonical form: the empty list a reset leaves has it, and a command's effect keeps it. -/
theorem turnStep_wf {t : Turn} {s u : State} (hs : s.buf.wf s.cfg = true) (h : turnStep t s = .next u) :
    u.buf.wf u.cfg = true := by
  rw [turnStep_cfg h]
  rcases turnStep_buf h with hbuf | ⟨hbuf, -⟩ | ⟨i, -, hbuf⟩ <;> rw [hbuf]
  · exact hs
  · rfl
  · simpa only [(effect_frame i s).1] using effect_wf (i := i) hs

end Sys2Proof.Machine

open Sys2Proof Sys2Proof.Machine

/-- Settles O20: a turn keeps the form (`turnStep_wf`), and taking the turn touches neither the list nor the configuration. -/
theorem stepKeepsMemoryCanonical : Obligations.StepKeepsMemoryCanonical := by
  intro s t hs h
  have hs' : (nextTurn s).2.buf.wf (nextTurn s).2.cfg = true := by simpa only [nextTurn_buf, nextTurn_cfg] using hs
  exact turnStep_wf hs' h

end
